-- ==== Sys2Proof/Word.lean ====
section
/-! DEFINITION. The word and byte types and the access widths.

Spec: 00_scope.md rule R7 (every architectural value is a vector of 32 bits) and 20_memory.md rule R31 (access
sizes 1, 2 and 4 and no others, so the widths are a closed type). -/

namespace Sys2Proof

/-- A memory byte (20_memory.md rule R43). -/
abbrev Byte := BitVec 8

/-- An architectural value: 32 bits, bit 31 the most significant (00_scope.md rule R7). -/
abbrev Word := BitVec 32

/-- A register index as the instruction word carries it: a 5-bit field (30_encoding.md rule R72). -/
abbrev RegIdx := BitVec 5

/-- The size of a bus access: 1, 2 or 4 bytes (20_memory.md rule R31). -/
inductive Width where
  | byte
  | half
  | word
deriving DecidableEq, Repr

end Sys2Proof
end

