-- ==== Sys2Proof/Config.lean ====
section
/-! DEFINITION. What is fixed for the machine and is not state: the vectors, the register count, the reference
platform's memory, and the constants the spec leaves OPEN, which stand here without a value.

Spec: 00_scope.md section 3 (parameter table), 20_memory.md rule R42 (the behaviour of a device other than the flat
memory is an argument of the model). -/

namespace Sys2Proof

/-- The state of a device other than the flat memory, as plain data (20_memory.md rule R42: "its own state type").
`line` is the value of its `irq()` output, a pure function of its state (R41); `code` stands for the rest of the
state, whatever it is. DESIGN CHOICE, log entry 3 (safe: any countable state type is coded so). -/
structure PeriphState where
  code : Nat
  line : Bool
deriving DecidableEq, Repr, Inhabited

namespace Config

/-- `RESET_VECTOR` (00_scope.md section 3; 10_state.md rule R25). -/
def resetVector : Word := 0#32

/-- `TRAP_VECTOR` (00_scope.md section 3; 60_exceptions.md rule R236). -/
def trapVector : Word := 4#32

/-- `N`, the number of general registers of this hardware (00_scope.md rule R5). -/
def registerCount : Nat := 32

/-- Base and size of the one flat memory of the reference platform `REF` (00_scope.md rule R6; log entry 1). -/
def refMemoryBase : Nat := 0

/-- See `refMemoryBase`. -/
def refMemorySize : Nat := 0x10000

/-- `RESET_CLEARS_IRQSTATE`, OPEN (10_state.md rule R26): no value, so a claim holds for both. Log entry 2. -/
opaque resetClearsIrqState : Bool

/-- `localRead` of the peripheral with behaviour `id` (20_memory.md rule R42): the raw 32 bits and the state after the
read. No value: any peripheral. Log entry 3. -/
opaque periphRead (id : Nat) (st : PeriphState) (offset : Nat) (w : Width) : Word × PeriphState

/-- `localWrite` of the peripheral with behaviour `id` (R42): it is handed the full 32-bit value (R39). Log entry 3. -/
opaque periphWrite (id : Nat) (st : PeriphState) (offset : Nat) (w : Width) (value : Word) : PeriphState

/-- `reset()` of the peripheral with behaviour `id` (R40, R42). Log entry 3. -/
opaque periphReset (id : Nat) (st : PeriphState) : PeriphState

/-- `env` of the peripheral with behaviour `id` (R42): which changes of its state the outside world may make between
two steps. Log entry 3. -/
opaque periphEnv (id : Nat) (st st' : PeriphState) : Prop

end Config
end Sys2Proof
end

