-- ==== Sys2Proof/Syntax.lean ====
section
/-! DEFINITION. The instructions, and the decoder's output record.

`Instr` has one constructor per row of spec/opcode_table.json; its operands are those of the assembler syntax of
30_encoding.md rule R85. `Decoded` is the record of rule R70 with its five control tags. -/

namespace Sys2Proof

/-- The instructions (00_scope.md rule R2) and the fallback record `invalid` (30_encoding.md rule R83).

Operands (R85): registers are 5-bit fields; `imm` is the 12-bit immediate before its sign extension; a branch or jump
`offset` is the byte offset from the instruction's own address, of 13 or 21 bits, and even (`Instr.wf`); `imm20` is the
20-bit field of `lui` and `auipc`; `shamt` is the shift amount. `invalid` carries the word that matched no row. -/
inductive Instr where
  | lui (rd : RegIdx) (imm20 : BitVec 20)
  | auipc (rd : RegIdx) (imm20 : BitVec 20)
  | jal (rd : RegIdx) (offset : BitVec 21)
  | jalr (rd rs1 : RegIdx) (imm : BitVec 12)
  | beq (rs1 rs2 : RegIdx) (offset : BitVec 13)
  | bne (rs1 rs2 : RegIdx) (offset : BitVec 13)
  | blt (rs1 rs2 : RegIdx) (offset : BitVec 13)
  | bge (rs1 rs2 : RegIdx) (offset : BitVec 13)
  | bltu (rs1 rs2 : RegIdx) (offset : BitVec 13)
  | bgeu (rs1 rs2 : RegIdx) (offset : BitVec 13)
  | lb (rd rs1 : RegIdx) (imm : BitVec 12)
  | lh (rd rs1 : RegIdx) (imm : BitVec 12)
  | lw (rd rs1 : RegIdx) (imm : BitVec 12)
  | lbu (rd rs1 : RegIdx) (imm : BitVec 12)
  | lhu (rd rs1 : RegIdx) (imm : BitVec 12)
  | sb (rs2 rs1 : RegIdx) (imm : BitVec 12)
  | sh (rs2 rs1 : RegIdx) (imm : BitVec 12)
  | sw (rs2 rs1 : RegIdx) (imm : BitVec 12)
  | addi (rd rs1 : RegIdx) (imm : BitVec 12)
  | slti (rd rs1 : RegIdx) (imm : BitVec 12)
  | sltiu (rd rs1 : RegIdx) (imm : BitVec 12)
  | xori (rd rs1 : RegIdx) (imm : BitVec 12)
  | ori (rd rs1 : RegIdx) (imm : BitVec 12)
  | andi (rd rs1 : RegIdx) (imm : BitVec 12)
  | slli (rd rs1 : RegIdx) (shamt : BitVec 5)
  | srli (rd rs1 : RegIdx) (shamt : BitVec 5)
  | srai (rd rs1 : RegIdx) (shamt : BitVec 5)
  | add (rd rs1 rs2 : RegIdx)
  | sub (rd rs1 rs2 : RegIdx)
  | sll (rd rs1 rs2 : RegIdx)
  | slt (rd rs1 rs2 : RegIdx)
  | sltu (rd rs1 rs2 : RegIdx)
  | xor (rd rs1 rs2 : RegIdx)
  | srl (rd rs1 rs2 : RegIdx)
  | sra (rd rs1 rs2 : RegIdx)
  | or (rd rs1 rs2 : RegIdx)
  | and (rd rs1 rs2 : RegIdx)
  | mret
  | invalid (word : Word)
deriving DecidableEq, Repr

/-- The field `name` of the decoded record (30_encoding.md rule R70): one of the 38 mnemonics, or `invalid`. -/
inductive Mnemonic where
  | lui | auipc | jal | jalr | beq | bne | blt | bge | bltu | bgeu
  | lb | lh | lw | lbu | lhu | sb | sh | sw
  | addi | slti | sltiu | xori | ori | andi | slli | srli | srai
  | add | sub | sll | slt | sltu | xor | srl | sra | or | and
  | mret | invalid
deriving DecidableEq, Repr

/-- ALU operand A select (R70). -/
inductive Src1 where
  | pc | x1 | none
deriving DecidableEq, Repr

/-- ALU operand B select (R70). -/
inductive Src2 where
  | imm | x2 | none
deriving DecidableEq, Repr

/-- ALU operation (R70). -/
inductive AluOp where
  | b | add | sll | slt | sltu | xor | srl | sra | or | and | sub | none
deriving DecidableEq, Repr

/-- Branch condition (R70); `none` is "not a branch" (40_execution_engine.md rule R108). -/
inductive BranchCond where
  | al | eq | ne | lt | ge | ltu | geu | none
deriving DecidableEq, Repr

/-- Writeback and memory action (R70); `pcPlus` is the spec's `pc+`. -/
inductive WbMem where
  | r | pcPlus | lb | lh | lw | lbu | lhu | sb | sh | sw | none
deriving DecidableEq, Repr

/-- The five control tags (30_encoding.md rules R70, R82). -/
structure Tags where
  src1 : Src1
  src2 : Src2
  aluOp : AluOp
  branch : BranchCond
  wbMem : WbMem
deriving DecidableEq, Repr

/-- The decoded instruction record (30_encoding.md rule R70). -/
structure Decoded where
  name : Mnemonic
  rs1 : RegIdx
  rs2 : RegIdx
  rd : RegIdx
  imm : Word
  tags : Tags
deriving DecidableEq, Repr

end Sys2Proof
end

