-- ==== Sys2Proof/Decode.lean ====
section
/-! DEFINITION. The decoder, total on every 32-bit word; the encoder; the opcode table; the decoded record.

Spec: 30_encoding.md. The decoder tests the fields of rule R72 as rule R80 says ("for U- and J-type the opcode only; for
I-, S-, B-type the opcode and funct3; for R-type and the shift-immediates the opcode, funct3 and funct7; for mret all 32
bits"); `opcodeTable` is rule R81's table as data, written apart from the decoder, and Laws/OpcodeTable.lean proves that
the two agree. The encodings are from general knowledge in the spec itself (decisions D1, D2, D24): log entry 6. -/

namespace Sys2Proof

/-! ### Fields (R72) -/

/-- `opcode`, bits 6:0 (30_encoding.md rule R72). -/
def opcodeOf (w : Word) : BitVec 7 := w.extractLsb' 0 7

/-- `rd`, bits 11:7 (R72). -/
def rdOf (w : Word) : RegIdx := w.extractLsb' 7 5

/-- `funct3`, bits 14:12 (R72). -/
def funct3Of (w : Word) : BitVec 3 := w.extractLsb' 12 3

/-- `rs1`, bits 19:15 (R72). -/
def rs1Of (w : Word) : RegIdx := w.extractLsb' 15 5

/-- `rs2`, bits 24:20 (R72). -/
def rs2Of (w : Word) : RegIdx := w.extractLsb' 20 5

/-- `funct7`, bits 31:25 (R72). -/
def funct7Of (w : Word) : BitVec 7 := w.extractLsb' 25 7

/-! ### Immediate fields (R73 to R79), before sign extension -/

/-- I-type: `word[31:20]` (R74). -/
def immIOf (w : Word) : BitVec 12 := w.extractLsb' 20 12

/-- S-type: `word[31:25] ++ word[11:7]` (R75). -/
def immSOf (w : Word) : BitVec 12 := w.extractLsb' 25 7 ++ w.extractLsb' 7 5

/-- B-type: `word[31] ++ word[7] ++ word[30:25] ++ word[11:8] ++ 0` (R76). -/
def offsetBOf (w : Word) : BitVec 13 :=
  w.extractLsb' 31 1 ++ w.extractLsb' 7 1 ++ w.extractLsb' 25 6 ++ w.extractLsb' 8 4 ++ 0#1

/-- U-type: `word[31:12]` (R77). -/
def imm20Of (w : Word) : BitVec 20 := w.extractLsb' 12 20

/-- J-type: `word[31] ++ word[19:12] ++ word[20] ++ word[30:21] ++ 0` (R78). -/
def offsetJOf (w : Word) : BitVec 21 :=
  w.extractLsb' 31 1 ++ w.extractLsb' 12 8 ++ w.extractLsb' 20 1 ++ w.extractLsb' 21 10 ++ 0#1

/-! ### The immediate as the record delivers it: 32 bits, sign-extended (R70, R74 to R79) -/

/-- `sext_32` of a 12-bit I- or S-type immediate (R74, R75). -/
def sextImm (imm : BitVec 12) : Word := imm.signExtend 32

/-- `sext_32` of a 13-bit branch offset (R76). -/
def sextOffsetB (offset : BitVec 13) : Word := offset.signExtend 32

/-- `sext_32` of a 21-bit jump offset (R78). -/
def sextOffsetJ (offset : BitVec 21) : Word := offset.signExtend 32

/-- The 20-bit field in bits 31:12, twelve zero bits below (R77). -/
def upperImm (imm20 : BitVec 20) : Word := imm20 ++ 0#12

/-- A shift-immediate's `imm`: the I-type immediate `sext_32(funct7 ++ shamt)`, so `shamt` for `slli` and `srli` and
`0x400 + shamt` for `srai` (R79). -/
def shiftImm (funct7 : BitVec 7) (shamt : BitVec 5) : Word := sextImm (funct7 ++ shamt)

/-! ### The decoder -/

/-- Opcode 0x63 (R81): `funct3` 010 and 011 are no instruction. -/
def decodeBranch (w : Word) : Instr :=
  if funct3Of w = 0b000#3 then .beq (rs1Of w) (rs2Of w) (offsetBOf w)
  else if funct3Of w = 0b001#3 then .bne (rs1Of w) (rs2Of w) (offsetBOf w)
  else if funct3Of w = 0b100#3 then .blt (rs1Of w) (rs2Of w) (offsetBOf w)
  else if funct3Of w = 0b101#3 then .bge (rs1Of w) (rs2Of w) (offsetBOf w)
  else if funct3Of w = 0b110#3 then .bltu (rs1Of w) (rs2Of w) (offsetBOf w)
  else if funct3Of w = 0b111#3 then .bgeu (rs1Of w) (rs2Of w) (offsetBOf w)
  else .invalid w

/-- Opcode 0x03 (R81): `funct3` 011, 110 and 111 are no instruction. -/
def decodeLoad (w : Word) : Instr :=
  if funct3Of w = 0b000#3 then .lb (rdOf w) (rs1Of w) (immIOf w)
  else if funct3Of w = 0b001#3 then .lh (rdOf w) (rs1Of w) (immIOf w)
  else if funct3Of w = 0b010#3 then .lw (rdOf w) (rs1Of w) (immIOf w)
  else if funct3Of w = 0b100#3 then .lbu (rdOf w) (rs1Of w) (immIOf w)
  else if funct3Of w = 0b101#3 then .lhu (rdOf w) (rs1Of w) (immIOf w)
  else .invalid w

/-- Opcode 0x23 (R81): `funct3` 011 to 111 are no instruction. -/
def decodeStore (w : Word) : Instr :=
  if funct3Of w = 0b000#3 then .sb (rs2Of w) (rs1Of w) (immSOf w)
  else if funct3Of w = 0b001#3 then .sh (rs2Of w) (rs1Of w) (immSOf w)
  else if funct3Of w = 0b010#3 then .sw (rs2Of w) (rs1Of w) (immSOf w)
  else .invalid w

/-- Opcode 0x13 (R81): the shift-immediates need the `funct7` of rule R79. -/
def decodeImmediate (w : Word) : Instr :=
  if funct3Of w = 0b000#3 then .addi (rdOf w) (rs1Of w) (immIOf w)
  else if funct3Of w = 0b010#3 then .slti (rdOf w) (rs1Of w) (immIOf w)
  else if funct3Of w = 0b011#3 then .sltiu (rdOf w) (rs1Of w) (immIOf w)
  else if funct3Of w = 0b100#3 then .xori (rdOf w) (rs1Of w) (immIOf w)
  else if funct3Of w = 0b110#3 then .ori (rdOf w) (rs1Of w) (immIOf w)
  else if funct3Of w = 0b111#3 then .andi (rdOf w) (rs1Of w) (immIOf w)
  else if funct3Of w = 0b001#3 ∧ funct7Of w = 0b0000000#7 then .slli (rdOf w) (rs1Of w) (rs2Of w)
  else if funct3Of w = 0b101#3 ∧ funct7Of w = 0b0000000#7 then .srli (rdOf w) (rs1Of w) (rs2Of w)
  else if funct3Of w = 0b101#3 ∧ funct7Of w = 0b0100000#7 then .srai (rdOf w) (rs1Of w) (rs2Of w)
  else .invalid w

/-- Opcode 0x33 with `funct7 = 0000000` (R81). -/
def decodeRegisterPlain (w : Word) : Instr :=
  if funct3Of w = 0b000#3 then .add (rdOf w) (rs1Of w) (rs2Of w)
  else if funct3Of w = 0b001#3 then .sll (rdOf w) (rs1Of w) (rs2Of w)
  else if funct3Of w = 0b010#3 then .slt (rdOf w) (rs1Of w) (rs2Of w)
  else if funct3Of w = 0b011#3 then .sltu (rdOf w) (rs1Of w) (rs2Of w)
  else if funct3Of w = 0b100#3 then .xor (rdOf w) (rs1Of w) (rs2Of w)
  else if funct3Of w = 0b101#3 then .srl (rdOf w) (rs1Of w) (rs2Of w)
  else if funct3Of w = 0b110#3 then .or (rdOf w) (rs1Of w) (rs2Of w)
  else .and (rdOf w) (rs1Of w) (rs2Of w)

/-- Opcode 0x33 (R81): `funct7` is `0000000`, or `0100000` for `sub` and `sra`; any other is no instruction. -/
def decodeRegister (w : Word) : Instr :=
  if funct7Of w = 0b0000000#7 then decodeRegisterPlain w
  else if funct7Of w = 0b0100000#7 ∧ funct3Of w = 0b000#3 then .sub (rdOf w) (rs1Of w) (rs2Of w)
  else if funct7Of w = 0b0100000#7 ∧ funct3Of w = 0b101#3 then .sra (rdOf w) (rs1Of w) (rs2Of w)
  else .invalid w

/-- `decode`, "pure and total over all 32-bit inputs" (30_encoding.md rules R70, R80, R81); a word that matches no row
is `invalid` (R83). -/
def decode (w : Word) : Instr :=
  if opcodeOf w = 0b0110111#7 then .lui (rdOf w) (imm20Of w)
  else if opcodeOf w = 0b0010111#7 then .auipc (rdOf w) (imm20Of w)
  else if opcodeOf w = 0b1101111#7 then .jal (rdOf w) (offsetJOf w)
  else if opcodeOf w = 0b1100111#7 ∧ funct3Of w = 0b000#3 then .jalr (rdOf w) (rs1Of w) (immIOf w)
  else if opcodeOf w = 0b1100011#7 then decodeBranch w
  else if opcodeOf w = 0b0000011#7 then decodeLoad w
  else if opcodeOf w = 0b0100011#7 then decodeStore w
  else if opcodeOf w = 0b0010011#7 then decodeImmediate w
  else if opcodeOf w = 0b0110011#7 then decodeRegister w
  else if w = 0x30200073#32 then .mret
  else .invalid w

/-! ### Bytes -/

/-- The four bytes of a word as the flat memory stores them, the least significant first (20_memory.md rules R32,
R33). -/
def wordBytes (w : Word) : List Byte :=
  [w.extractLsb' 0 8, w.extractLsb' 8 8, w.extractLsb' 16 8, w.extractLsb' 24 8]

/-- The word of four bytes, the first at the lowest address (R32, R33). -/
def wordOfBytes (b0 b1 b2 b3 : Byte) : Word := b3 ++ b2 ++ b1 ++ b0

/-- Why a list of bytes holds no instruction. -/
inductive DecodeError where
  /-- Fewer than the four bytes of an instruction (30_encoding.md rule R71); `present` of them are there. -/
  | truncated (present : Nat)
deriving DecidableEq, Repr

/-- The first instruction of a list of bytes and the bytes after it; fewer than four bytes are rejected by name. -/
def decodeBytes : List Byte → Except DecodeError (Instr × List Byte)
  | b0 :: b1 :: b2 :: b3 :: rest => .ok (decode (wordOfBytes b0 b1 b2 b3), rest)
  | bytes => .error (.truncated bytes.length)

/-- The instruction the decoder reads from an opcode-table row's word (bit 0 the least significant bit of the word; an
instruction is one 32-bit word, 30_encoding.md rule R71, so a longer row is none). -/
def decodeTableWord (nbits w : Nat) : Option Instr :=
  if nbits ≤ 32 then
    match decodeBytes (wordBytes (BitVec.ofNat 32 (w % 2 ^ nbits))) with
    | .ok (i, _) => some i
    | .error _ => none
  else none

/-! ### The encoder (R73, R81) -/

/-- R-type, and the shift-immediates with `shamt` in the place of `rs2` (R73, R79). -/
def encodeR (funct7 : BitVec 7) (rs2 rs1 : RegIdx) (funct3 : BitVec 3) (rd : RegIdx) (opcode : BitVec 7) : Word :=
  funct7 ++ rs2 ++ rs1 ++ funct3 ++ rd ++ opcode

/-- I-type (R73). -/
def encodeI (imm : BitVec 12) (rs1 : RegIdx) (funct3 : BitVec 3) (rd : RegIdx) (opcode : BitVec 7) : Word :=
  imm ++ rs1 ++ funct3 ++ rd ++ opcode

/-- S-type (R73). -/
def encodeS (imm : BitVec 12) (rs2 rs1 : RegIdx) (funct3 : BitVec 3) (opcode : BitVec 7) : Word :=
  imm.extractLsb' 5 7 ++ rs2 ++ rs1 ++ funct3 ++ imm.extractLsb' 0 5 ++ opcode

/-- B-type (R73): word bit 31 is `imm[12]`, bits 30:25 `imm[10:5]`, bits 11:8 `imm[4:1]`, bit 7 `imm[11]`. -/
def encodeB (offset : BitVec 13) (rs2 rs1 : RegIdx) (funct3 : BitVec 3) (opcode : BitVec 7) : Word :=
  offset.extractLsb' 12 1 ++ offset.extractLsb' 5 6 ++ rs2 ++ rs1 ++ funct3 ++ offset.extractLsb' 1 4
    ++ offset.extractLsb' 11 1 ++ opcode

/-- U-type (R73). -/
def encodeU (imm20 : BitVec 20) (rd : RegIdx) (opcode : BitVec 7) : Word := imm20 ++ rd ++ opcode

/-- J-type (R73): word bit 31 is `imm[20]`, bits 30:21 `imm[10:1]`, bit 20 `imm[11]`, bits 19:12 `imm[19:12]`. -/
def encodeJ (offset : BitVec 21) (rd : RegIdx) (opcode : BitVec 7) : Word :=
  offset.extractLsb' 20 1 ++ offset.extractLsb' 1 10 ++ offset.extractLsb' 11 1 ++ offset.extractLsb' 12 8 ++ rd
    ++ opcode

/-- The word of an instruction (30_encoding.md rules R73, R81). -/
def encode : Instr → Word
  | .lui rd imm20 => encodeU imm20 rd 0b0110111#7
  | .auipc rd imm20 => encodeU imm20 rd 0b0010111#7
  | .jal rd offset => encodeJ offset rd 0b1101111#7
  | .jalr rd rs1 imm => encodeI imm rs1 0b000#3 rd 0b1100111#7
  | .beq rs1 rs2 offset => encodeB offset rs2 rs1 0b000#3 0b1100011#7
  | .bne rs1 rs2 offset => encodeB offset rs2 rs1 0b001#3 0b1100011#7
  | .blt rs1 rs2 offset => encodeB offset rs2 rs1 0b100#3 0b1100011#7
  | .bge rs1 rs2 offset => encodeB offset rs2 rs1 0b101#3 0b1100011#7
  | .bltu rs1 rs2 offset => encodeB offset rs2 rs1 0b110#3 0b1100011#7
  | .bgeu rs1 rs2 offset => encodeB offset rs2 rs1 0b111#3 0b1100011#7
  | .lb rd rs1 imm => encodeI imm rs1 0b000#3 rd 0b0000011#7
  | .lh rd rs1 imm => encodeI imm rs1 0b001#3 rd 0b0000011#7
  | .lw rd rs1 imm => encodeI imm rs1 0b010#3 rd 0b0000011#7
  | .lbu rd rs1 imm => encodeI imm rs1 0b100#3 rd 0b0000011#7
  | .lhu rd rs1 imm => encodeI imm rs1 0b101#3 rd 0b0000011#7
  | .sb rs2 rs1 imm => encodeS imm rs2 rs1 0b000#3 0b0100011#7
  | .sh rs2 rs1 imm => encodeS imm rs2 rs1 0b001#3 0b0100011#7
  | .sw rs2 rs1 imm => encodeS imm rs2 rs1 0b010#3 0b0100011#7
  | .addi rd rs1 imm => encodeI imm rs1 0b000#3 rd 0b0010011#7
  | .slti rd rs1 imm => encodeI imm rs1 0b010#3 rd 0b0010011#7
  | .sltiu rd rs1 imm => encodeI imm rs1 0b011#3 rd 0b0010011#7
  | .xori rd rs1 imm => encodeI imm rs1 0b100#3 rd 0b0010011#7
  | .ori rd rs1 imm => encodeI imm rs1 0b110#3 rd 0b0010011#7
  | .andi rd rs1 imm => encodeI imm rs1 0b111#3 rd 0b0010011#7
  | .slli rd rs1 shamt => encodeR 0b0000000#7 shamt rs1 0b001#3 rd 0b0010011#7
  | .srli rd rs1 shamt => encodeR 0b0000000#7 shamt rs1 0b101#3 rd 0b0010011#7
  | .srai rd rs1 shamt => encodeR 0b0100000#7 shamt rs1 0b101#3 rd 0b0010011#7
  | .add rd rs1 rs2 => encodeR 0b0000000#7 rs2 rs1 0b000#3 rd 0b0110011#7
  | .sub rd rs1 rs2 => encodeR 0b0100000#7 rs2 rs1 0b000#3 rd 0b0110011#7
  | .sll rd rs1 rs2 => encodeR 0b0000000#7 rs2 rs1 0b001#3 rd 0b0110011#7
  | .slt rd rs1 rs2 => encodeR 0b0000000#7 rs2 rs1 0b010#3 rd 0b0110011#7
  | .sltu rd rs1 rs2 => encodeR 0b0000000#7 rs2 rs1 0b011#3 rd 0b0110011#7
  | .xor rd rs1 rs2 => encodeR 0b0000000#7 rs2 rs1 0b100#3 rd 0b0110011#7
  | .srl rd rs1 rs2 => encodeR 0b0000000#7 rs2 rs1 0b101#3 rd 0b0110011#7
  | .sra rd rs1 rs2 => encodeR 0b0100000#7 rs2 rs1 0b101#3 rd 0b0110011#7
  | .or rd rs1 rs2 => encodeR 0b0000000#7 rs2 rs1 0b110#3 rd 0b0110011#7
  | .and rd rs1 rs2 => encodeR 0b0000000#7 rs2 rs1 0b111#3 rd 0b0110011#7
  | .mret => encodeR 0b0011000#7 0b00010#5 0b00000#5 0b000#3 0b00000#5 0b1110011#7
  | .invalid word => word

/-! ### The opcode table as data (R80, R81) -/

/-- One row of the table of rule R81: a word selects the row iff `word & mask = pattern` (R80; `pattern` is the spec's
`match`). -/
structure OpcodeRow where
  name : Mnemonic
  pattern : Word
  mask : Word
deriving DecidableEq, Repr

/-- Rows of the table: upperJump group. -/
def upperJumpRows : List OpcodeRow :=
  [⟨.lui, 0x00000037#32, 0x0000007F#32⟩,
   ⟨.auipc, 0x00000017#32, 0x0000007F#32⟩,
   ⟨.jal, 0x0000006F#32, 0x0000007F#32⟩,
   ⟨.jalr, 0x00000067#32, 0x0000707F#32⟩]

/-- Rows of the table: branch group. -/
def branchRows : List OpcodeRow :=
  [⟨.beq, 0x00000063#32, 0x0000707F#32⟩,
   ⟨.bne, 0x00001063#32, 0x0000707F#32⟩,
   ⟨.blt, 0x00004063#32, 0x0000707F#32⟩,
   ⟨.bge, 0x00005063#32, 0x0000707F#32⟩,
   ⟨.bltu, 0x00006063#32, 0x0000707F#32⟩,
   ⟨.bgeu, 0x00007063#32, 0x0000707F#32⟩]

/-- Rows of the table: memory group. -/
def memoryRows : List OpcodeRow :=
  [⟨.lb, 0x00000003#32, 0x0000707F#32⟩,
   ⟨.lh, 0x00001003#32, 0x0000707F#32⟩,
   ⟨.lw, 0x00002003#32, 0x0000707F#32⟩,
   ⟨.lbu, 0x00004003#32, 0x0000707F#32⟩,
   ⟨.lhu, 0x00005003#32, 0x0000707F#32⟩,
   ⟨.sb, 0x00000023#32, 0x0000707F#32⟩,
   ⟨.sh, 0x00001023#32, 0x0000707F#32⟩,
   ⟨.sw, 0x00002023#32, 0x0000707F#32⟩]

/-- Rows of the table: immediate group. -/
def immediateRows : List OpcodeRow :=
  [⟨.addi, 0x00000013#32, 0x0000707F#32⟩,
   ⟨.slti, 0x00002013#32, 0x0000707F#32⟩,
   ⟨.sltiu, 0x00003013#32, 0x0000707F#32⟩,
   ⟨.xori, 0x00004013#32, 0x0000707F#32⟩,
   ⟨.ori, 0x00006013#32, 0x0000707F#32⟩,
   ⟨.andi, 0x00007013#32, 0x0000707F#32⟩,
   ⟨.slli, 0x00001013#32, 0xFE00707F#32⟩,
   ⟨.srli, 0x00005013#32, 0xFE00707F#32⟩,
   ⟨.srai, 0x40005013#32, 0xFE00707F#32⟩]

/-- Rows of the table: register group. -/
def registerRows : List OpcodeRow :=
  [⟨.add, 0x00000033#32, 0xFE00707F#32⟩,
   ⟨.sub, 0x40000033#32, 0xFE00707F#32⟩,
   ⟨.sll, 0x00001033#32, 0xFE00707F#32⟩,
   ⟨.slt, 0x00002033#32, 0xFE00707F#32⟩,
   ⟨.sltu, 0x00003033#32, 0xFE00707F#32⟩,
   ⟨.xor, 0x00004033#32, 0xFE00707F#32⟩,
   ⟨.srl, 0x00005033#32, 0xFE00707F#32⟩,
   ⟨.sra, 0x40005033#32, 0xFE00707F#32⟩,
   ⟨.or, 0x00006033#32, 0xFE00707F#32⟩,
   ⟨.and, 0x00007033#32, 0xFE00707F#32⟩]

/-- Rows of the table: system group. -/
def systemRows : List OpcodeRow :=
  [⟨.mret, 0x30200073#32, 0xFFFFFFFF#32⟩]

/-- The 38 rows of rule R81, in the table's order. -/
def opcodeTable : List OpcodeRow :=
  upperJumpRows ++ branchRows ++ memoryRows ++ immediateRows ++ registerRows ++ systemRows

/-- `word & mask = match` (R80). -/
def OpcodeRow.selects (row : OpcodeRow) (w : Word) : Bool := w &&& row.mask == row.pattern

/-! ### The decoded record (R70, R82) -/

/-- The field `name` (R70). -/
def Instr.mnemonic : Instr → Mnemonic
  | .lui _ _ => .lui
  | .auipc _ _ => .auipc
  | .jal _ _ => .jal
  | .jalr _ _ _ => .jalr
  | .beq _ _ _ => .beq
  | .bne _ _ _ => .bne
  | .blt _ _ _ => .blt
  | .bge _ _ _ => .bge
  | .bltu _ _ _ => .bltu
  | .bgeu _ _ _ => .bgeu
  | .lb _ _ _ => .lb
  | .lh _ _ _ => .lh
  | .lw _ _ _ => .lw
  | .lbu _ _ _ => .lbu
  | .lhu _ _ _ => .lhu
  | .sb _ _ _ => .sb
  | .sh _ _ _ => .sh
  | .sw _ _ _ => .sw
  | .addi _ _ _ => .addi
  | .slti _ _ _ => .slti
  | .sltiu _ _ _ => .sltiu
  | .xori _ _ _ => .xori
  | .ori _ _ _ => .ori
  | .andi _ _ _ => .andi
  | .slli _ _ _ => .slli
  | .srli _ _ _ => .srli
  | .srai _ _ _ => .srai
  | .add _ _ _ => .add
  | .sub _ _ _ => .sub
  | .sll _ _ _ => .sll
  | .slt _ _ _ => .slt
  | .sltu _ _ _ => .sltu
  | .xor _ _ _ => .xor
  | .srl _ _ _ => .srl
  | .sra _ _ _ => .sra
  | .or _ _ _ => .or
  | .and _ _ _ => .and
  | .mret => .mret
  | .invalid _ => .invalid

/-- The control tags of each mnemonic: the table of rule R82. -/
def Mnemonic.tags : Mnemonic → Tags
  | .lui => ⟨.pc, .imm, .b, .none, .r⟩
  | .auipc => ⟨.pc, .imm, .add, .none, .r⟩
  | .jal => ⟨.pc, .imm, .add, .al, .pcPlus⟩
  | .jalr => ⟨.x1, .imm, .add, .al, .pcPlus⟩
  | .beq => ⟨.pc, .imm, .add, .eq, .none⟩
  | .bne => ⟨.pc, .imm, .add, .ne, .none⟩
  | .blt => ⟨.pc, .imm, .add, .lt, .none⟩
  | .bge => ⟨.pc, .imm, .add, .ge, .none⟩
  | .bltu => ⟨.pc, .imm, .add, .ltu, .none⟩
  | .bgeu => ⟨.pc, .imm, .add, .geu, .none⟩
  | .lb => ⟨.x1, .imm, .add, .none, .lb⟩
  | .lh => ⟨.x1, .imm, .add, .none, .lh⟩
  | .lw => ⟨.x1, .imm, .add, .none, .lw⟩
  | .lbu => ⟨.x1, .imm, .add, .none, .lbu⟩
  | .lhu => ⟨.x1, .imm, .add, .none, .lhu⟩
  | .sb => ⟨.x1, .imm, .add, .none, .sb⟩
  | .sh => ⟨.x1, .imm, .add, .none, .sh⟩
  | .sw => ⟨.x1, .imm, .add, .none, .sw⟩
  | .addi => ⟨.x1, .imm, .add, .none, .r⟩
  | .slti => ⟨.x1, .imm, .slt, .none, .r⟩
  | .sltiu => ⟨.x1, .imm, .sltu, .none, .r⟩
  | .xori => ⟨.x1, .imm, .xor, .none, .r⟩
  | .ori => ⟨.x1, .imm, .or, .none, .r⟩
  | .andi => ⟨.x1, .imm, .and, .none, .r⟩
  | .slli => ⟨.x1, .imm, .sll, .none, .r⟩
  | .srli => ⟨.x1, .imm, .srl, .none, .r⟩
  | .srai => ⟨.x1, .imm, .sra, .none, .r⟩
  | .add => ⟨.x1, .x2, .add, .none, .r⟩
  | .sub => ⟨.x1, .x2, .sub, .none, .r⟩
  | .sll => ⟨.x1, .x2, .sll, .none, .r⟩
  | .slt => ⟨.x1, .x2, .slt, .none, .r⟩
  | .sltu => ⟨.x1, .x2, .sltu, .none, .r⟩
  | .xor => ⟨.x1, .x2, .xor, .none, .r⟩
  | .srl => ⟨.x1, .x2, .srl, .none, .r⟩
  | .sra => ⟨.x1, .x2, .sra, .none, .r⟩
  | .or => ⟨.x1, .x2, .or, .none, .r⟩
  | .and => ⟨.x1, .x2, .and, .none, .r⟩
  | .mret => ⟨.none, .none, .none, .none, .none⟩
  | .invalid => ⟨.none, .none, .none, .none, .none⟩

/-- The field `imm` (R70): the sign-extended immediate of the instruction's format, 0 where the format has none
(R74 to R79). -/
def Instr.imm : Instr → Word
  | .lui _ imm20 | .auipc _ imm20 => upperImm imm20
  | .jal _ offset => sextOffsetJ offset
  | .beq _ _ offset | .bne _ _ offset | .blt _ _ offset | .bge _ _ offset | .bltu _ _ offset | .bgeu _ _ offset =>
    sextOffsetB offset
  | .jalr _ _ imm | .lb _ _ imm | .lh _ _ imm | .lw _ _ imm | .lbu _ _ imm | .lhu _ _ imm => sextImm imm
  | .sb _ _ imm | .sh _ _ imm | .sw _ _ imm => sextImm imm
  | .addi _ _ imm | .slti _ _ imm | .sltiu _ _ imm | .xori _ _ imm | .ori _ _ imm | .andi _ _ imm => sextImm imm
  | .slli _ _ shamt | .srli _ _ shamt => shiftImm 0b0000000#7 shamt
  | .srai _ _ shamt => shiftImm 0b0100000#7 shamt
  | .add _ _ _ | .sub _ _ _ | .sll _ _ _ | .slt _ _ _ | .sltu _ _ _ | .xor _ _ _ | .srl _ _ _ | .sra _ _ _
  | .or _ _ _ | .and _ _ _ => 0#32
  | .mret | .invalid _ => 0#32

/-- The record the decoder returns (R70): `rd`, `rs1`, `rs2` are always the word's fixed bit positions, also where the
format has no such field (R72, spec decision D17). -/
def Instr.record (i : Instr) : Decoded where
  name := i.mnemonic
  rs1 := rs1Of (encode i)
  rs2 := rs2Of (encode i)
  rd := rdOf (encode i)
  imm := i.imm
  tags := i.mnemonic.tags

/-- The spec's `decode`: from a word to its record (R70). -/
def decodeRecord (w : Word) : Decoded := (decode w).record

end Sys2Proof
end

