-- ==== Sys2Proof/WellFormed.lean ====
section
/-! DEFINITION. Which instruction terms the hardware has a word for.

A branch or jump offset is even, its bit 0 having no place in the word (30_encoding.md rules R76, R78), and `invalid`
carries a word that no row of the opcode table selects (R83). Every other operand is a field of its encoding's own
width, so it has no check. -/

namespace Sys2Proof

/-- A branch offset's bit 0 is 0 (R76). -/
def evenOffsetB (offset : BitVec 13) : Bool := !offset.getLsbD 0

/-- A jump offset's bit 0 is 0 (R78). -/
def evenOffsetJ (offset : BitVec 21) : Bool := !offset.getLsbD 0

/-- No row of the table selects the word (R83). -/
def unmatched (w : Word) : Bool := opcodeTable.all fun row => !row.selects w

/-- The instruction has a word of its own (30_encoding.md rules R76, R78, R83). -/
def Instr.wf : Instr → Bool
  | .jal _ offset => evenOffsetJ offset
  | .beq _ _ offset | .bne _ _ offset | .blt _ _ offset | .bge _ _ offset | .bltu _ _ offset | .bgeu _ _ offset =>
    evenOffsetB offset
  | .invalid w => unmatched w
  | .lui _ _ | .auipc _ _ | .jalr _ _ _ => true
  | .lb _ _ _ | .lh _ _ _ | .lw _ _ _ | .lbu _ _ _ | .lhu _ _ _ | .sb _ _ _ | .sh _ _ _ | .sw _ _ _ => true
  | .addi _ _ _ | .slti _ _ _ | .sltiu _ _ _ | .xori _ _ _ | .ori _ _ _ | .andi _ _ _ => true
  | .slli _ _ _ | .srli _ _ _ | .srai _ _ _ => true
  | .add _ _ _ | .sub _ _ _ | .sll _ _ _ | .slt _ _ _ | .sltu _ _ _ | .xor _ _ _ | .srl _ _ _ | .sra _ _ _
  | .or _ _ _ | .and _ _ _ | .mret => true

end Sys2Proof
end

