-- ==== Sys2Proof/Machine/State.lean ====
section
/-! DEFINITION. The machine's state as plain data, the reasons a step or a host operation can stop, and reset.

Spec: 10_state.md rule R10 ("The whole state of the block is the following, and nothing else"), its reset values R24 to
R29, and 40_execution_engine.md rule R112 for the trace record. -/

namespace Sys2Proof.Machine

/-- The bytes of a flat memory device by their offset in it: offsets strictly rising, no byte 0, an unlisted offset
reading 0 (20_memory.md rule R43; 10_state.md rule R28). -/
abbrev Memory := List Host.Cell

/-- What backs a device (10_state.md rule R10): a byte array, or a peripheral's own state with the `id` of its behaviour
argument (20_memory.md rule R42). -/
inductive DeviceBody where
  | memory (data : Memory)
  | peripheral (id : Nat) (st : PeriphState)
deriving DecidableEq, Repr

/-- A device: `base` is its `firstAddress`, `base + size - 1` its `lastAddress` (20_memory.md rule R36). -/
structure Device where
  base : Nat
  size : Nat
  body : DeviceBody
deriving DecidableEq, Repr

/-- The trace record of a step (40_execution_engine.md rule R112). -/
structure Trace where
  instr : Decoded
  pc : Word
  incPc : Word
  irq : Bool
  x1 : Word
  x2 : Word
  a : Word
  b : Word
  r : Word
  l : Word
  taken : Bool
  fetchError : Bool
  loadStoreError : Bool
deriving DecidableEq, Repr

/-- The state. `regs` to `busError` are the spec's (10_state.md rule R10); the last three fields are the model's own (log
entry 12): `irqSample` and `fetchError` are the values of the step under way that rule R101 of 40_execution_engine.md
records before the instruction runs, and `trace` is the output port of rule R112. -/
structure State where
  /-- `x[1..N)`: the entry at place `j` is register `j + 1`, and `N` is the length plus one. -/
  regs : List Word
  pc : Word
  mepc : Word
  irqState : Bool
  /-- The bus's devices in registration order. -/
  devices : List Device
  /-- `bus.error`. -/
  busError : Bool
  irqSample : Bool
  fetchError : Bool
  trace : Option Trace
deriving DecidableEq, Repr

/-- The two error kinds of 60_exceptions.md rule R232. They do not stop the hardware: `exec` and `step` never answer one.
Only the host's own abort policy raises them (`watchedStep` in Safety.lean; 40_execution_engine.md rule R114: "the
host's job to detect repeated errors ... and decide whether to abort"). Safe. Log entry 14. -/
inductive Fault where
  /-- The step that fetched at `pc` reported `fetchError`; raised by `watchedStep` only; safe. -/
  | fetchError (pc : Word)
  /-- The load or store at `address` reported `loadStoreError`; raised by `watchedStep` only; safe. -/
  | loadStoreError (address : Word)
deriving DecidableEq, Repr

/-- What the model refuses. No instruction with a meaning is refused. -/
inductive Refusal where
  /-- An instruction without a meaning yet, raised by its arm of `exec`; safe. No arm raises it. -/
  | notModelled (mnemonic : String)
  /-- A host access of a size other than 1, 2 and 4 (20_memory.md rule R31), raised by `hostRead` and `hostStep`; safe. -/
  | accessSize (bytes : Nat)
  /-- A device of size 0, or one that passes 2^32 (20_memory.md rule R36), raised by `hostStep`; safe. -/
  | deviceRange (base size : Nat)
deriving DecidableEq, Repr

/-- A flat memory device as it is built: every byte 0 (10_state.md rule R28). -/
def Device.newMemory (base size : Nat) : Device := ⟨base, size, .memory []⟩

/-- `REF`, the spec's reference platform: one flat memory at base 0 of size 0x10000 (00_scope.md rule R6). DESIGN
CHOICE, log entry 1. -/
def refPlatform : List Device := [Device.newMemory Config.refMemoryBase Config.refMemorySize]

/-- A core of `n` registers just built on a bus with the given devices (70_reset_and_hazards.md rule R261): registers,
`pc` and `mepc` as `Core.reset()` leaves them (R24, R25), `irqState` false (R26; log entry 5), `bus.error` false (R27; log entry 4).
No step has been made, so there is no trace; the sampled values are false (log entry 12). -/
def State.powerOn (n : Nat) (devices : List Device) : State where
  regs := List.replicate (n - 1) 0#32
  pc := Config.resetVector
  mepc := 0#32
  irqState := false
  devices := devices
  busError := false
  irqSample := false
  fetchError := false
  trace := none

/-- The machine right after reset: 32 registers, on the platform `REF` (log entry 1). -/
def State.reset : State := State.powerOn Config.registerCount refPlatform

end Sys2Proof.Machine
end

