-- ==== Sys2Proof/Machine/Memory.lean ====
section
/-! DEFINITION. The flat memory device's byte array (20_memory.md rule R43) as a canonical list, and the one place where
byte order is decided (R32: little-endian). -/

namespace Sys2Proof

/-- The number of bytes of an access (20_memory.md rule R31). -/
def Width.bytes : Width → Nat
  | .byte => 1
  | .half => 2
  | .word => 4

/-- The width of an access of `n` bytes, if the spec defines one (R31). -/
def Width.ofBytes (n : Nat) : Option Width :=
  if n = 1 then some .byte else if n = 2 then some .half else if n = 4 then some .word else none

namespace Machine

/-- What a byte that nothing has written reads as: "zero-initialized on construction" (10_state.md rule R28). -/
def Memory.unwritten : Byte := 0#8

/-- `data[offset]`. -/
def Memory.byte : Memory → Nat → Byte
  | [], _ => Memory.unwritten
  | (k, c) :: rest, a => if k = a then c else Memory.byte rest a

/-- `data[a] <- b`, keeping the canonical form: a byte that an unlisted offset reads as is not listed. -/
def Memory.set : Memory → Nat → Byte → Memory
  | [], a, b => if b = Memory.unwritten then [] else [(a, b)]
  | (k, c) :: rest, a, b =>
    if a < k then (if b = Memory.unwritten then (k, c) :: rest else (a, b) :: (k, c) :: rest)
    else if a = k then (if b = Memory.unwritten then rest else (a, b) :: rest)
    else (k, c) :: Memory.set rest a b

/-- Every listed offset is at least `lo` and below `size`, the offsets rise strictly, and no listed byte is the one an
unlisted offset reads as. -/
def Memory.wfFrom (size : Nat) : Nat → Memory → Bool
  | _, [] => true
  | lo, (k, c) :: rest => decide (lo ≤ k) && decide (k < size) && c != Memory.unwritten && Memory.wfFrom size (k + 1) rest

/-- The canonical form of a memory of `size` bytes. -/
def Memory.wf (size : Nat) (m : Memory) : Bool := Memory.wfFrom size 0 m

/-- `localRead(offset, size)`: the bytes composed with the one at the lowest offset in bits 7:0 (20_memory.md rules R32,
R43), as 32 bits. -/
def Memory.localRead (m : Memory) (offset : Nat) : Width → Word
  | .byte => (m.byte offset).setWidth 32
  | .half => (m.byte (offset + 1) ++ m.byte offset).setWidth 32
  | .word => m.byte (offset + 3) ++ m.byte (offset + 2) ++ m.byte (offset + 1) ++ m.byte offset

/-- The first `n` bytes of a value, byte `i` being bits `8*i+7 : 8*i`, stored from `offset` (R43). -/
def Memory.store (m : Memory) (offset : Nat) (value : Word) : Nat → Memory
  | 0 => m
  | n + 1 => (Memory.store m offset value n).set (offset + n) (value.extractLsb' (8 * n) 8)

/-- `localWrite(offset, size, value)` (R43): the low `8 * size` bits of the value; the other bytes are untouched. -/
def Memory.localWrite (m : Memory) (offset : Nat) (w : Width) (value : Word) : Memory :=
  m.store offset value w.bytes

end Machine
end Sys2Proof
end

