-- ==== Sys2Proof/Machine/Bus.lean ====
section
/-! DEFINITION. The device contract and the bus (20_memory.md sections 2 and 4). -/

namespace Sys2Proof.Machine

/-! ### Slices (00_scope.md rule R8) -/

/-- `unsignedSlice(v, hi, 0)` for a slice of `n` bits: bits `n-1 : 0`, zero-extended to 32 bits (R8). -/
def unsignedSlice (n : Nat) (v : Word) : Word := (v.setWidth n).setWidth 32

/-- `signedSlice(v, hi, 0)` for a slice of `n` bits: bits `n-1 : 0`, sign-extended to 32 bits (R8). -/
def signedSlice (n : Nat) (v : Word) : Word := (v.setWidth n).signExtend 32

/-- The low `8 * size` bits of what a device returned, extended to 32 bits (20_memory.md rule R38; 43_load_store.md rule
R199: "The extension is done in the device's `read`, not in the core"). -/
def extendRaw (w : Width) (signed : Bool) (raw : Word) : Word :=
  if signed then signedSlice (8 * w.bytes) raw else unsignedSlice (8 * w.bytes) raw

/-! ### Devices (R36 to R42) -/

/-- `lastAddress` (R36). -/
def Device.last (d : Device) : Nat := d.base + d.size - 1

/-- The range the model admits: `size >= 1` and `firstAddress + size <= 2^32` (R36). -/
def Device.rangeOk (base size : Nat) : Bool := decide (1 ≤ size) && decide (base + size ≤ 2 ^ 32)

/-- `accepts(address, size)`: the entire range of the access lies within the device (R37); `address + size - 1` is not
reduced modulo 2^32 (R51). -/
def Device.accepts (d : Device) (address : Nat) (w : Width) : Bool :=
  decide (d.base ≤ address) && decide (address + w.bytes - 1 ≤ d.last)

/-- `localRead(offset, size)`: the raw bits and the body after the read; a flat memory's read changes nothing (R42,
R43). -/
def DeviceBody.localRead (body : DeviceBody) (offset : Nat) (w : Width) : Word × DeviceBody :=
  match body with
  | .memory data => (data.localRead offset w, .memory data)
  | .peripheral id st => ((Config.periphRead id st offset w).1, .peripheral id (Config.periphRead id st offset w).2)

/-- `localWrite(offset, size, value)` (R42, R43); the full 32-bit value is handed over (R39). -/
def DeviceBody.localWrite (body : DeviceBody) (offset : Nat) (w : Width) (value : Word) : DeviceBody :=
  match body with
  | .memory data => .memory (data.localWrite offset w value)
  | .peripheral id st => .peripheral id (Config.periphWrite id st offset w value)

/-- `reset()`: a flat memory keeps its contents (R40, R43; 10_state.md rule R28). -/
def DeviceBody.reset : DeviceBody → DeviceBody
  | .memory data => .memory data
  | .peripheral id st => .peripheral id (Config.periphReset id st)

/-- `irq()`: constant false for a flat memory (R41, R43). -/
def DeviceBody.irq : DeviceBody → Bool
  | .memory _ => false
  | .peripheral _ st => st.line

/-- `read(address, size, signed)` (R38), called only when the device accepts the access. -/
def Device.read (d : Device) (address : Nat) (w : Width) (signed : Bool) : Word × Device :=
  let (raw, body) := d.body.localRead (address - d.base) w
  (extendRaw w signed raw, { d with body := body })

/-- `write(address, size, value)` (R39), called only when the device accepts the access. -/
def Device.write (d : Device) (address : Nat) (w : Width) (value : Word) : Device :=
  { d with body := d.body.localWrite (address - d.base) w value }

/-- `reset()` of the device (R40). -/
def Device.reset (d : Device) : Device := { d with body := d.body.reset }

/-- `irq()` of the device (R41). -/
def Device.irq (d : Device) : Bool := d.body.irq

/-- The byte a flat memory device holds at an address of the address space, none where the device holds no byte there;
a peripheral holds none. The model's read of one byte of one device, for statements. -/
def Device.byteAt (d : Device) (address : Nat) : Option Byte :=
  match d.body with
  | .memory data =>
    if d.base ≤ address ∧ address < d.base + d.size then some (data.byte (address - d.base)) else none
  | .peripheral _ _ => none

/-- A device as the model admits it: a range of rule R36, and a flat memory's bytes in canonical form. -/
def Device.wf (d : Device) : Bool :=
  Device.rangeOk d.base d.size &&
    match d.body with
    | .memory data => data.wf d.size
    | .peripheral _ _ => true

/-! ### Routing (R44 to R50) -/

/-- `getDevices(address, size)`: "every device whose `accepts(address,size)` holds", in list order (R46). -/
def acceptingDevices (devices : List Device) (address : Nat) (w : Width) : List Device :=
  devices.filter fun d => d.accepts address w

/-- The read of the first accepting device (R44): its value and the list with that device as the read leaves it; none
when no device accepts. A later device that also accepts is not touched. -/
def readFirst (address : Nat) (w : Width) (signed : Bool) : List Device → Option (Word × List Device)
  | [] => none
  | d :: rest =>
    if d.accepts address w then
      some ((d.read address w signed).1, (d.read address w signed).2 :: rest)
    else
      match readFirst address w signed rest with
      | some (value, rest') => some (value, d :: rest')
      | none => none

/-- The write to every accepting device (R45). Devices share no state, so no order of the writes shows (log entry 11). -/
def writeAll (address : Nat) (w : Width) (value : Word) (devices : List Device) : List Device :=
  devices.map fun d => if d.accepts address w then d.write address w value else d

/-- `Bus.read(address, size, signed)` (R44): no device, error and 0; else no error and the first device's value. -/
def State.busRead (s : State) (address : Word) (w : Width) (signed : Bool) : Word × State :=
  match readFirst address.toNat w signed s.devices with
  | none => (0#32, { s with busError := true })
  | some (value, devices) => (value, { s with devices := devices, busError := false })

/-- `Bus.write(address, size, value)` (R45): no device, error and nothing written; else no error and every accepting
device written. -/
def State.busWrite (s : State) (address : Word) (w : Width) (value : Word) : State :=
  if (acceptingDevices s.devices address.toNat w).isEmpty then { s with busError := true }
  else { s with devices := writeAll address.toNat w value s.devices, busError := false }

/-- `Bus.irq()`: true iff any device's line is true (R47). -/
def State.busIrq (s : State) : Bool := s.devices.any Device.irq

/-- `Bus.reset()`: every device's `reset()`; the list and `bus.error` stay (R48; 10_state.md rule R27). -/
def State.busReset (s : State) : State := { s with devices := s.devices.map Device.reset }

/-- `addDevice(device)`: appended; "no overlap validation is performed" (R46). -/
def State.addDevice (s : State) (d : Device) : State := { s with devices := s.devices ++ [d] }

/-- The bytes the flat memory devices hold at an address, device by device in list order (overlapping devices may differ,
R49). The model's read of one byte of the address space, for statements. -/
def State.bytesAt (s : State) (address : Nat) : List (Option Byte) := s.devices.map fun d => d.byteAt address

end Sys2Proof.Machine
end

