-- ==== Sys2Proof/Machine/Ops.lean ====
section
/-! DEFINITION. The operations every instruction shares: the register file, the program counter, interrupt entry and
return, the control-flow update, the fetch, and the trace record. -/

namespace Sys2Proof.Machine

/-! ### Register file (10_state.md rules R11 to R13) -/

/-- `N`, the number of general registers, `x0` counted (10_state.md rule R10). -/
def State.registerCount (s : State) : Nat := s.regs.length + 1

/-- `getX(i)`: 0 for index 0 and for an index from `N` on, else the stored word (R12). -/
def State.getX (s : State) (i : Nat) : Word :=
  if i = 0 then 0#32
  else if s.registerCount ≤ i then 0#32
  else s.regs.getD (i - 1) 0#32

/-- `setX(i, v)`: discarded for index 0 and for an index from `N` on, else stored (R13). -/
def State.setX (s : State) (i : Nat) (v : Word) : State :=
  if i = 0 then s
  else if s.registerCount ≤ i then s
  else { s with regs := s.regs.set (i - 1) v }

/-- The register an instruction's source field names (40_execution_engine.md rule R103). -/
def State.readReg (s : State) (field : RegIdx) : Word := s.getX field.toNat

/-- The write to the register an instruction's destination field names (40_execution_engine.md rule R109). -/
def State.writeReg (s : State) (field : RegIdx) (v : Word) : State := s.setX field.toNat v

/-! ### Program counter (10_state.md rules R15 to R17) -/

/-- A value as it is written to `pc`: bits 1 and 0 cleared (10_state.md rule R15). -/
def alignPc (v : Word) : Word := v &&& 0xFFFFFFFC#32

/-- `setPc(v)` (R15). -/
def State.setPc (s : State) (v : Word) : State := { s with pc := alignPc v }

/-- `incPc = (pc + 4) mod 2^32` (R16, R17; log entry 9 for its width). -/
def State.incPc (s : State) : Word := s.pc + 4#32

/-! ### The interrupt (60_exceptions.md) -/

/-- `enteringIrq = irq and not irqState`, `irq` being the sample of this step (40_execution_engine.md rules R101, R110). -/
def State.enteringIrq (s : State) : Bool := s.irqSample && !s.irqState

/-- Interrupt entry, the machine's one trap (60_exceptions.md rule R236): `mepc` takes the address the program was about
to go to, unmasked, `pc` the trap vector, and `irqState` is set; nothing else changes. -/
def State.enterInterrupt (s : State) (resumeAt : Word) : State :=
  { s.setPc Config.trapVector with mepc := resumeAt, irqState := true }

/-- Return from interrupt (44_system.md rule R210): `pc <- mepc` with its low two bits dropped, `irqState` cleared, `mepc`
unchanged. -/
def State.returnFromInterrupt (s : State) : State := { s.setPc s.mepc with irqState := false }

/-! ### The control-flow update (40_execution_engine.md rule R110) -/

/-- The address the instruction goes to when no interrupt is entered and it is not `mret`: the ALU result if the transfer
is taken, else `incPc` (R110). -/
def State.target (s : State) (taken : Bool) (r : Word) : Word := if taken then r else s.incPc

/-- Cases 1, 3 and 4 of R110: interrupt entry before a taken transfer before the fall-through. -/
def State.advance (s : State) (taken : Bool) (r : Word) : State :=
  if s.enteringIrq then s.enterInterrupt (s.target taken r) else s.setPc (s.target taken r)

/-- Cases 1 and 2 of R110, for `mret`: interrupt entry, which saves `incPc`, before the return (60_exceptions.md rule
R241). -/
def State.advanceMret (s : State) : State :=
  if s.enteringIrq then s.enterInterrupt s.incPc else s.returnFromInterrupt

/-! ### The trace record (40_execution_engine.md rule R112) -/

/-- What a step computes and the trace shows (R112): the ALU operands and result, the loaded value (0 when there is none),
the branch decision and the load or store error (R111). -/
structure StepValues where
  a : Word
  b : Word
  r : Word
  l : Word
  taken : Bool
  loadStoreError : Bool
deriving DecidableEq, Repr

/-- The record of a step that runs the instruction decoded as `d` from state `s` (R112): `irq` is `enteringIrq`, not the
raw line. -/
def State.traceOf (s : State) (d : Decoded) (v : StepValues) : Trace where
  instr := d
  pc := s.pc
  incPc := s.incPc
  irq := s.enteringIrq
  x1 := s.readReg d.rs1
  x2 := s.readReg d.rs2
  a := v.a
  b := v.b
  r := v.r
  l := v.l
  taken := v.taken
  fetchError := s.fetchError
  loadStoreError := v.loadStoreError

/-- The record is returned for observation (R112); log entry 12. -/
def State.emit (s : State) (t : Trace) : State := { s with trace := some t }

/-! ### Sample and fetch (40_execution_engine.md rule R101) -/

/-- Steps 1 and 2 of the cycle: the interrupt line is sampled, then the word at `pc` is read through the bus and
`fetchError` records the outcome (R101; 20_memory.md rule R33). -/
def State.fetch (s : State) : Word × State :=
  let (word, s') := s.busRead s.pc .word false
  (word, { s' with irqSample := s.busIrq, fetchError := s'.busError })

/-! ### Placing a word where the fetch finds it -/

/-- The four bytes of a word stored into the first device that accepts a 4-byte access at the address, if that device is a
flat memory; none otherwise. -/
def placeInFirst (address : Nat) (value : Word) : List Device → Option (List Device)
  | [] => none
  | d :: rest =>
    if d.accepts address .word then
      match d.body with
      | .memory data => some ({ d with body := .memory (data.localWrite (address - d.base) .word value) } :: rest)
      | .peripheral _ _ => none
    else (placeInFirst address value rest).map (d :: ·)

/-- The state with a word where the next fetch reads it: in the flat memory that answers the fetch; where none answers it,
in a flat memory of four bytes put before the other devices. `pc` is a multiple of 4 in every state a step or a reset
leaves (10_state.md rule R15), and is made one here. Log entry 13. -/
def State.placeWord (s : State) (value : Word) : State :=
  let at4 := (alignPc s.pc).toNat
  match placeInFirst at4 value s.devices with
  | some devices => { s.setPc s.pc with devices := devices }
  | none => { s.setPc s.pc with devices := ⟨at4, 4, .memory (Memory.localWrite [] 0 .word value)⟩ :: s.devices }

end Sys2Proof.Machine
end

