-- ==== Sys2Proof/Machine/Flags.lean ====
section
/-! DEFINITION. Comparisons and the branch decision.

The core has no flag of any kind (10_state.md rule R18): "comparisons write 0 or 1 to a general register (`slt*`) or
decide a branch directly from two registers". So the flag computations of this hardware are these comparisons. -/

namespace Sys2Proof.Machine

/-- `signed(a) < signed(b)` (00_scope.md rule R7; 40_execution_engine.md rules R107, R108). -/
def lessSigned (a b : Word) : Bool := decide (a.toInt < b.toInt)

/-- `unsigned(a) < unsigned(b)` (R7, R107, R108). -/
def lessUnsigned (a b : Word) : Bool := decide (a.toNat < b.toNat)

/-- 1 for true, 0 for false: the result of a set-if-less instruction (R107). -/
def zeroOrOne (c : Bool) : Word := if c then 1#32 else 0#32

/-- The branch decision from the two register values (40_execution_engine.md rule R108); `none` is "not a branch". -/
def branchTaken (c : BranchCond) (x1 x2 : Word) : Bool :=
  match c with
  | .al => true
  | .eq => x1 == x2
  | .ne => x1 != x2
  | .lt => lessSigned x1 x2
  | .ge => !lessSigned x1 x2
  | .ltu => lessUnsigned x1 x2
  | .geu => !lessUnsigned x1 x2
  | .none => false

end Sys2Proof.Machine
end

