-- ==== Sys2Proof/Machine/Operands.lean ====
section
/-! DEFINITION. The ALU's operand selects and the ALU (40_execution_engine.md rules R104 to R107). -/

namespace Sys2Proof.Machine

/-- Operand A: `pc`, the register value `x1`, or 0 for `none` (R104; log entry 8 for `none`). -/
def operandA (c : Src1) (pc x1 : Word) : Word :=
  match c with
  | .pc => pc
  | .x1 => x1
  | .none => 0#32

/-- Operand B: the immediate, the register value `x2`, or 0 for `none` (R104; log entry 8 for `none`). -/
def operandB (c : Src2) (imm x2 : Word) : Word :=
  match c with
  | .imm => imm
  | .x2 => x2
  | .none => 0#32

/-- The shift amount `B[4:0]` (R106). -/
def shiftAmount (b : Word) : Nat := (b.extractLsb' 0 5).toNat

/-- `add`: `(A + B) mod 2^32` (R105). -/
def aluAdd (a b : Word) : Word := a + b

/-- `sub`: `(A - B) mod 2^32` (R105). -/
def aluSub (a b : Word) : Word := a - b

/-- `xor`, bit by bit (R105; log entry 7). -/
def aluXor (a b : Word) : Word := a ^^^ b

/-- `or`, bit by bit (R105; log entry 7). -/
def aluOr (a b : Word) : Word := a ||| b

/-- `and`, bit by bit (R105; log entry 7). -/
def aluAnd (a b : Word) : Word := a &&& b

/-- `sll`: zeros enter at bit 0 (R106). -/
def aluSll (a b : Word) : Word := a <<< shiftAmount b

/-- `srl`: zeros enter at bit 31 (R106). -/
def aluSrl (a b : Word) : Word := a >>> shiftAmount b

/-- `sra`: copies of `A[31]` enter at bit 31 (R106). -/
def aluSra (a b : Word) : Word := a.sshiftRight (shiftAmount b)

/-- `slt`: 1 if `signed(A) < signed(B)`, else 0 (R107). -/
def aluSlt (a b : Word) : Word := zeroOrOne (lessSigned a b)

/-- `sltu`: 1 if `unsigned(A) < unsigned(B)`, else 0 (R107). -/
def aluSltu (a b : Word) : Word := zeroOrOne (lessUnsigned a b)

/-- The ALU by operation tag (R105 to R107); `b` passes operand B (log entry 7), `none` gives 0 (log entry 8). -/
def alu (op : AluOp) (a b : Word) : Word :=
  match op with
  | .b => b
  | .add => aluAdd a b
  | .sub => aluSub a b
  | .xor => aluXor a b
  | .or => aluOr a b
  | .and => aluAnd a b
  | .sll => aluSll a b
  | .srl => aluSrl a b
  | .sra => aluSra a b
  | .slt => aluSlt a b
  | .sltu => aluSltu a b
  | .none => 0#32

/-- The address of a load or store: `(x[rs1] + imm) mod 2^32` (43_load_store.md rule R190). -/
def State.effectiveAddress (s : State) (rs1 : RegIdx) (imm : BitVec 12) : Word := aluAdd (s.readReg rs1) (sextImm imm)

/-- The target of a pc-relative jump or branch: `(pc + imm) mod 2^32` (42_control_transfer.md rule R170). -/
def State.pcRelative (s : State) (imm : Word) : Word := aluAdd s.pc imm

end Sys2Proof.Machine
end

