-- ==== Sys2Proof/Machine/Control.lean ====
section
/-! DEFINITION. The control-transfer instructions (42_control_transfer.md rules R170 to R179). -/

namespace Sys2Proof.Machine

/-- A jump with link (R170): the target is computed from the registers as they were, then `incPc` goes to `x[rd]`, then
`pc` takes the target. -/
def jumpAndLink (i : Instr) (rd : RegIdx) (a b r : Word) (s : State) : Host.Outcome State Fault Refusal :=
  .next (((s.writeReg rd s.incPc).advance true r).emit (s.traceOf i.record ⟨a, b, r, 0#32, true, false⟩))

/-- A conditional branch (42_control_transfer.md section 2): the target `pc + imm` is computed whether or not it is used;
no register is written. -/
def conditionalBranch (i : Instr) (c : BranchCond) (rs1 rs2 : RegIdx) (offset : BitVec 13) (s : State) :
    Host.Outcome State Fault Refusal :=
  let r := s.pcRelative (sextOffsetB offset)
  let taken := branchTaken c (s.readReg rs1) (s.readReg rs2)
  .next ((s.advance taken r).emit (s.traceOf i.record ⟨s.pc, sextOffsetB offset, r, 0#32, taken, false⟩))

/-- `jal` (R171). -/
def execJal (rd : RegIdx) (offset : BitVec 21) (s : State) : Host.Outcome State Fault Refusal :=
  jumpAndLink (.jal rd offset) rd s.pc (sextOffsetJ offset) (s.pcRelative (sextOffsetJ offset)) s

/-- `jalr` (R172). -/
def execJalr (rd rs1 : RegIdx) (imm : BitVec 12) (s : State) : Host.Outcome State Fault Refusal :=
  jumpAndLink (.jalr rd rs1 imm) rd (s.readReg rs1) (sextImm imm) (s.effectiveAddress rs1 imm) s

/-- `beq` (R173). -/
def execBeq (rs1 rs2 : RegIdx) (offset : BitVec 13) (s : State) : Host.Outcome State Fault Refusal :=
  conditionalBranch (.beq rs1 rs2 offset) .eq rs1 rs2 offset s

/-- `bne` (R174). -/
def execBne (rs1 rs2 : RegIdx) (offset : BitVec 13) (s : State) : Host.Outcome State Fault Refusal :=
  conditionalBranch (.bne rs1 rs2 offset) .ne rs1 rs2 offset s

/-- `blt` (R175). -/
def execBlt (rs1 rs2 : RegIdx) (offset : BitVec 13) (s : State) : Host.Outcome State Fault Refusal :=
  conditionalBranch (.blt rs1 rs2 offset) .lt rs1 rs2 offset s

/-- `bge` (R176). -/
def execBge (rs1 rs2 : RegIdx) (offset : BitVec 13) (s : State) : Host.Outcome State Fault Refusal :=
  conditionalBranch (.bge rs1 rs2 offset) .ge rs1 rs2 offset s

/-- `bltu` (R177). -/
def execBltu (rs1 rs2 : RegIdx) (offset : BitVec 13) (s : State) : Host.Outcome State Fault Refusal :=
  conditionalBranch (.bltu rs1 rs2 offset) .ltu rs1 rs2 offset s

/-- `bgeu` (R178). -/
def execBgeu (rs1 rs2 : RegIdx) (offset : BitVec 13) (s : State) : Host.Outcome State Fault Refusal :=
  conditionalBranch (.bgeu rs1 rs2 offset) .geu rs1 rs2 offset s

end Sys2Proof.Machine
end

