-- ==== Sys2Proof/Machine/Integer.lean ====
section
/-! DEFINITION. The integer computational instructions (41_integer_computational.md rules R140 to R162). -/

namespace Sys2Proof.Machine

/-- The shape all of them have (R140): the result `r` to `x[rd]`, no memory access, then the control-flow update with no
transfer; the trace shows the operands. -/
def writeResult (i : Instr) (rd : RegIdx) (a b r : Word) (s : State) : Host.Outcome State Fault Refusal :=
  .next (((s.writeReg rd r).advance false r).emit (s.traceOf i.record ⟨a, b, r, 0#32, false, false⟩))

/-- The register-immediate form: operands `x[rs1]` and the sign-extended immediate (41_integer_computational.md section
2). -/
def immediateForm (i : Instr) (f : Word → Word → Word) (rd rs1 : RegIdx) (imm : Word) (s : State) :
    Host.Outcome State Fault Refusal :=
  writeResult i rd (s.readReg rs1) imm (f (s.readReg rs1) imm) s

/-- The register-register form: operands `x[rs1]` and `x[rs2]` (41_integer_computational.md section 3). -/
def registerForm (i : Instr) (f : Word → Word → Word) (rd rs1 rs2 : RegIdx) (s : State) :
    Host.Outcome State Fault Refusal :=
  writeResult i rd (s.readReg rs1) (s.readReg rs2) (f (s.readReg rs1) (s.readReg rs2)) s

/-- `lui`: `x[rd] <- imm` (R141); operand A is `pc`, which the result ignores. -/
def execLui (rd : RegIdx) (imm20 : BitVec 20) (s : State) : Host.Outcome State Fault Refusal :=
  writeResult (.lui rd imm20) rd s.pc (upperImm imm20) (upperImm imm20) s

/-- `auipc`: `x[rd] <- (pc + imm) mod 2^32` (R142). -/
def execAuipc (rd : RegIdx) (imm20 : BitVec 20) (s : State) : Host.Outcome State Fault Refusal :=
  writeResult (.auipc rd imm20) rd s.pc (upperImm imm20) (s.pcRelative (upperImm imm20)) s

/-- `addi` (R143). -/
def execAddi (rd rs1 : RegIdx) (imm : BitVec 12) (s : State) : Host.Outcome State Fault Refusal :=
  immediateForm (.addi rd rs1 imm) aluAdd rd rs1 (sextImm imm) s

/-- `slti` (R144). -/
def execSlti (rd rs1 : RegIdx) (imm : BitVec 12) (s : State) : Host.Outcome State Fault Refusal :=
  immediateForm (.slti rd rs1 imm) aluSlt rd rs1 (sextImm imm) s

/-- `sltiu` (R145): the immediate is sign-extended first and then read unsigned. -/
def execSltiu (rd rs1 : RegIdx) (imm : BitVec 12) (s : State) : Host.Outcome State Fault Refusal :=
  immediateForm (.sltiu rd rs1 imm) aluSltu rd rs1 (sextImm imm) s

/-- `xori` (R146). -/
def execXori (rd rs1 : RegIdx) (imm : BitVec 12) (s : State) : Host.Outcome State Fault Refusal :=
  immediateForm (.xori rd rs1 imm) aluXor rd rs1 (sextImm imm) s

/-- `ori` (R147). -/
def execOri (rd rs1 : RegIdx) (imm : BitVec 12) (s : State) : Host.Outcome State Fault Refusal :=
  immediateForm (.ori rd rs1 imm) aluOr rd rs1 (sextImm imm) s

/-- `andi` (R148). -/
def execAndi (rd rs1 : RegIdx) (imm : BitVec 12) (s : State) : Host.Outcome State Fault Refusal :=
  immediateForm (.andi rd rs1 imm) aluAnd rd rs1 (sextImm imm) s

/-- `slli` (R149). -/
def execSlli (rd rs1 : RegIdx) (shamt : BitVec 5) (s : State) : Host.Outcome State Fault Refusal :=
  immediateForm (.slli rd rs1 shamt) aluSll rd rs1 (shiftImm 0b0000000#7 shamt) s

/-- `srli` (R150). -/
def execSrli (rd rs1 : RegIdx) (shamt : BitVec 5) (s : State) : Host.Outcome State Fault Refusal :=
  immediateForm (.srli rd rs1 shamt) aluSrl rd rs1 (shiftImm 0b0000000#7 shamt) s

/-- `srai` (R151): `imm = 0x400 + shamt`, of which the ALU uses the low five bits (30_encoding.md rule R79). -/
def execSrai (rd rs1 : RegIdx) (shamt : BitVec 5) (s : State) : Host.Outcome State Fault Refusal :=
  immediateForm (.srai rd rs1 shamt) aluSra rd rs1 (shiftImm 0b0100000#7 shamt) s

/-- `add` (R152). -/
def execAdd (rd rs1 rs2 : RegIdx) (s : State) : Host.Outcome State Fault Refusal :=
  registerForm (.add rd rs1 rs2) aluAdd rd rs1 rs2 s

/-- `sub` (R153). -/
def execSub (rd rs1 rs2 : RegIdx) (s : State) : Host.Outcome State Fault Refusal :=
  registerForm (.sub rd rs1 rs2) aluSub rd rs1 rs2 s

/-- `sll` (R154). -/
def execSll (rd rs1 rs2 : RegIdx) (s : State) : Host.Outcome State Fault Refusal :=
  registerForm (.sll rd rs1 rs2) aluSll rd rs1 rs2 s

/-- `slt` (R155). -/
def execSlt (rd rs1 rs2 : RegIdx) (s : State) : Host.Outcome State Fault Refusal :=
  registerForm (.slt rd rs1 rs2) aluSlt rd rs1 rs2 s

/-- `sltu` (R156). -/
def execSltu (rd rs1 rs2 : RegIdx) (s : State) : Host.Outcome State Fault Refusal :=
  registerForm (.sltu rd rs1 rs2) aluSltu rd rs1 rs2 s

/-- `xor` (R157). -/
def execXor (rd rs1 rs2 : RegIdx) (s : State) : Host.Outcome State Fault Refusal :=
  registerForm (.xor rd rs1 rs2) aluXor rd rs1 rs2 s

/-- `srl` (R158). -/
def execSrl (rd rs1 rs2 : RegIdx) (s : State) : Host.Outcome State Fault Refusal :=
  registerForm (.srl rd rs1 rs2) aluSrl rd rs1 rs2 s

/-- `sra` (R159). -/
def execSra (rd rs1 rs2 : RegIdx) (s : State) : Host.Outcome State Fault Refusal :=
  registerForm (.sra rd rs1 rs2) aluSra rd rs1 rs2 s

/-- `or` (R160). -/
def execOr (rd rs1 rs2 : RegIdx) (s : State) : Host.Outcome State Fault Refusal :=
  registerForm (.or rd rs1 rs2) aluOr rd rs1 rs2 s

/-- `and` (R161). -/
def execAnd (rd rs1 rs2 : RegIdx) (s : State) : Host.Outcome State Fault Refusal :=
  registerForm (.and rd rs1 rs2) aluAnd rd rs1 rs2 s

end Sys2Proof.Machine
end

