-- ==== Sys2Proof/Machine/LoadStore.lean ====
section
/-! DEFINITION. The load and store instructions (43_load_store.md rules R190 to R199). -/

namespace Sys2Proof.Machine

/-- A load (43_load_store.md section 1): one bus read at `x[rs1] + imm`, its 32-bit value to `x[rd]`. The read happens
also for `x0`, and a read no device accepts gives 0 (R190; 40_execution_engine.md rules R109, R111). -/
def load (i : Instr) (w : Width) (signed : Bool) (rd rs1 : RegIdx) (imm : BitVec 12) (s : State) :
    Host.Outcome State Fault Refusal :=
  let addr := s.effectiveAddress rs1 imm
  let (l, s') := s.busRead addr w signed
  .next (((s'.writeReg rd l).advance false addr).emit
    (s.traceOf i.record ⟨s.readReg rs1, sextImm imm, addr, l, false, s'.busError⟩))

/-- A store (43_load_store.md section 2): one bus write of all 32 bits of `x[rs2]` at `x[rs1] + imm`; no register is
written (R190; 40_execution_engine.md rules R109, R111). -/
def store (i : Instr) (w : Width) (rs2 rs1 : RegIdx) (imm : BitVec 12) (s : State) :
    Host.Outcome State Fault Refusal :=
  let addr := s.effectiveAddress rs1 imm
  let s' := s.busWrite addr w (s.readReg rs2)
  .next ((s'.advance false addr).emit (s.traceOf i.record ⟨s.readReg rs1, sextImm imm, addr, 0#32, false, s'.busError⟩))

/-- `lb` (R191). -/
def execLb (rd rs1 : RegIdx) (imm : BitVec 12) (s : State) : Host.Outcome State Fault Refusal :=
  load (.lb rd rs1 imm) .byte true rd rs1 imm s

/-- `lh` (R192). -/
def execLh (rd rs1 : RegIdx) (imm : BitVec 12) (s : State) : Host.Outcome State Fault Refusal :=
  load (.lh rd rs1 imm) .half true rd rs1 imm s

/-- `lw` (R193). -/
def execLw (rd rs1 : RegIdx) (imm : BitVec 12) (s : State) : Host.Outcome State Fault Refusal :=
  load (.lw rd rs1 imm) .word true rd rs1 imm s

/-- `lbu` (R194). -/
def execLbu (rd rs1 : RegIdx) (imm : BitVec 12) (s : State) : Host.Outcome State Fault Refusal :=
  load (.lbu rd rs1 imm) .byte false rd rs1 imm s

/-- `lhu` (R195). -/
def execLhu (rd rs1 : RegIdx) (imm : BitVec 12) (s : State) : Host.Outcome State Fault Refusal :=
  load (.lhu rd rs1 imm) .half false rd rs1 imm s

/-- `sb` (R196). -/
def execSb (rs2 rs1 : RegIdx) (imm : BitVec 12) (s : State) : Host.Outcome State Fault Refusal :=
  store (.sb rs2 rs1 imm) .byte rs2 rs1 imm s

/-- `sh` (R197). -/
def execSh (rs2 rs1 : RegIdx) (imm : BitVec 12) (s : State) : Host.Outcome State Fault Refusal :=
  store (.sh rs2 rs1 imm) .half rs2 rs1 imm s

/-- `sw` (R198). -/
def execSw (rs2 rs1 : RegIdx) (imm : BitVec 12) (s : State) : Host.Outcome State Fault Refusal :=
  store (.sw rs2 rs1 imm) .word rs2 rs1 imm s

end Sys2Proof.Machine
end

