-- ==== Sys2Proof/Machine/System.lean ====
section
/-! DEFINITION. `mret` and the unrecognised words (44_system.md rules R210 to R215). -/

namespace Sys2Proof.Machine

/-- What `mret` and `invalid` show in the trace: all tags none, so `A = B = r = l = 0`, nothing taken, no error (R210,
R212; log entry 8). -/
def noValues : StepValues := ⟨0#32, 0#32, 0#32, 0#32, false, false⟩

/-- `mret` (R210): no register, no memory; the return from interrupt, unless an interrupt is entered in the same step
(60_exceptions.md rule R241). -/
def execMret (s : State) : Host.Outcome State Fault Refusal :=
  .next (s.advanceMret.emit (s.traceOf Instr.mret.record noValues))

/-- `invalid` (R212): a no-operation that only advances `pc`, for every word that is no instruction, `fence`, `ecall`,
`ebreak`, `wfi` and `csrr*` among them (R213, R214; log entry 6). -/
def execInvalid (word : Word) (s : State) : Host.Outcome State Fault Refusal :=
  .next ((s.advance false 0#32).emit (s.traceOf (Instr.invalid word).record noValues))

end Sys2Proof.Machine
end

