-- ==== Sys2Proof/Machine/Step.lean ====
section
/-! DEFINITION. The machine's one transition, and the placing of an instruction where it fetches. -/

namespace Sys2Proof.Machine

/-- One step (40_execution_engine.md rule R100): sample and fetch, decode, run the instruction. -/
def step (s : State) : Host.Outcome State Fault Refusal :=
  exec (decode s.fetch.1) s.fetch.2

/-- The state with an instruction word where `step` fetches its next instruction (`State.placeWord`); an instruction is
one 32-bit word (30_encoding.md rule R71), and bits of `w` above `nbits` are 0. Log entry 13. -/
def State.withFetchWord (s : State) (nbits w : Nat) : State :=
  s.placeWord (BitVec.ofNat 32 (w % 2 ^ nbits))

end Sys2Proof.Machine
end

