-- ==== Sys2Proof/Machine/Engine.lean ====
section
/-! DEFINITION. The step engine over the control tags (40_execution_engine.md rules R103 to R112), on the full product of
tag values (R115). The meanings of the instructions are written apart from it, from the family files 41 to 44; that the
two agree is an obligation. -/

namespace Sys2Proof.Machine

/-- A load of the engine: the loaded value `l`, and the state after `x[rd] <- l` (R109). -/
def State.loadTo (s : State) (rd : RegIdx) (address : Word) (w : Width) (signed : Bool) : Word × State :=
  ((s.busRead address w signed).1, (s.busRead address w signed).2.writeReg rd (s.busRead address w signed).1)

/-- Step 8, writeback and memory (R109): the loaded value (0 when none is), and the state after the action. -/
def State.writeback (s : State) (wb : WbMem) (rd : RegIdx) (r x2 : Word) : Word × State :=
  match wb with
  | .r => (0#32, s.writeReg rd r)
  | .pcPlus => (0#32, s.writeReg rd s.incPc)
  | .lb => s.loadTo rd r .byte true
  | .lh => s.loadTo rd r .half true
  | .lw => s.loadTo rd r .word true
  | .lbu => s.loadTo rd r .byte false
  | .lhu => s.loadTo rd r .half false
  | .sb => (0#32, s.busWrite r .byte x2)
  | .sh => (0#32, s.busWrite r .half x2)
  | .sw => (0#32, s.busWrite r .word x2)
  | .none => (0#32, s)

/-- "`wbMem` starts with 'l' or 's'" (R111). -/
def accessesMemory : WbMem → Bool
  | .lb | .lh | .lw | .lbu | .lhu | .sb | .sh | .sw => true
  | .r | .pcPlus | .none => false

/-- Step 10, the control-flow update: the four cases in their priority order (R110). -/
def State.controlFlow (s : State) (name : Mnemonic) (taken : Bool) (r : Word) : State :=
  if s.enteringIrq then s.enterInterrupt (if taken then r else s.incPc)
  else if name = .mret then s.returnFromInterrupt
  else if taken then s.setPc r
  else s.setPc s.incPc

/-- Steps 4 to 11 for a decoded record (R103 to R112). -/
def engine (d : Decoded) (s : State) : State :=
  let x1 := s.readReg d.rs1
  let x2 := s.readReg d.rs2
  let a := operandA d.tags.src1 s.pc x1
  let b := operandB d.tags.src2 d.imm x2
  let r := alu d.tags.aluOp a b
  let taken := branchTaken d.tags.branch x1 x2
  let (l, s') := s.writeback d.tags.wbMem d.rd r x2
  let loadStoreError := accessesMemory d.tags.wbMem && s'.busError
  (s'.controlFlow d.name taken r).emit (s.traceOf d ⟨a, b, r, l, taken, loadStoreError⟩)

end Sys2Proof.Machine
end

