-- ==== Sys2Proof/Machine/HostInterface.lean ====
section
/-! DEFINITION. What the outside world does to the block between steps (70_reset_and_hazards.md rules R260 to R268). -/

namespace Sys2Proof.Machine

/-- `Core.reset()` (70_reset_and_hazards.md rule R260): registers, `pc` and `mepc` to 0; `irqState` cleared if and only if
`RESET_CLEARS_IRQSTATE` (log entry 2); the bus, the devices, memory and `bus.error` untouched. -/
def State.coreReset (s : State) : State :=
  { s with
    regs := List.replicate s.regs.length 0#32
    pc := Config.resetVector
    mepc := 0#32
    irqState := if Config.resetClearsIrqState then false else s.irqState }

/-- The host's operations that change something (70_reset_and_hazards.md rule R267). Inspection and `Bus.irq` change
nothing: they are `State`'s fields and `State.busIrq`. -/
inductive HostOp where
  | coreReset
  | busReset
  | addMemory (base : Word) (size : Nat)
  | addPeripheral (base : Word) (size id : Nat) (st : PeriphState)
  | busRead (address : Word) (bytes : Nat) (signed : Bool)
  | busWrite (address : Word) (bytes : Nat) (value : Word)
deriving DecidableEq, Repr

/-- The host's `Bus.read` with its value (20_memory.md rules R44, R60); a size other than 1, 2, 4 is refused (R31). -/
def hostRead (s : State) (address : Word) (bytes : Nat) (signed : Bool) :
    Host.Outcome (Word × State) Fault Refusal :=
  match Width.ofBytes bytes with
  | some w => .next (s.busRead address w signed)
  | none => .refused (.accessSize bytes)

/-- `addDevice` for a device of the given range (R46), refused for a range rule R36 does not admit. -/
def addChecked (s : State) (base : Word) (size : Nat) (body : DeviceBody) : Host.Outcome State Fault Refusal :=
  if Device.rangeOk base.toNat size then .next (s.addDevice ⟨base.toNat, size, body⟩)
  else .refused (.deviceRange base.toNat size)

/-- One operation of the host (R267). -/
def hostStep (op : HostOp) (s : State) : Host.Outcome State Fault Refusal :=
  match op with
  | .coreReset => .next s.coreReset
  | .busReset => .next s.busReset
  | .addMemory base size => addChecked s base size (.memory [])
  | .addPeripheral base size id st => addChecked s base size (.peripheral id st)
  | .busRead address bytes signed =>
    match Width.ofBytes bytes with
    | some w => .next (s.busRead address w signed).2
    | none => .refused (.accessSize bytes)
  | .busWrite address bytes value =>
    match Width.ofBytes bytes with
    | some w => .next (s.busWrite address w value)
    | none => .refused (.accessSize bytes)

/-- What may happen between two steps (70_reset_and_hazards.md rule R268): "any finite sequence of host operations", and
changes of a peripheral's state that its `env` allows (20_memory.md rule R42), which is how an interrupt line rises. -/
inductive Between : State → State → Prop where
  | nothing (s : State) : Between s s
  | host (op : HostOp) {s s' s'' : State} : hostStep op s = .next s' → Between s' s'' → Between s s''
  | env {s s'' : State} (before after : List Device) (base size id : Nat) (st st' : PeriphState) :
      s.devices = before ++ ⟨base, size, .peripheral id st⟩ :: after →
      Config.periphEnv id st st' →
      Between { s with devices := before ++ ⟨base, size, .peripheral id st'⟩ :: after } s'' →
      Between s s''

end Sys2Proof.Machine
end

