-- ==== Sys2Proof/Safety.lean ====
section
/-! DEFINITION. The terms claims use: the invariant of the state, the states a run reaches, and the host's policy of
stopping at an error. -/

namespace Sys2Proof.Machine

/-- The invariant of the state: `pc` is a multiple of 4 (10_state.md rule R15), and every device has a range of rule R36 of
20_memory.md and, if it is a flat memory, bytes in canonical form within its size (R43). -/
abbrev State.Inv (s : State) : Prop := alignPc s.pc = s.pc ∧ (s.devices.all Device.wf) = true

/-- The states `n` steps lead to, with the host and the environment acting between them (40_execution_engine.md rule R116;
70_reset_and_hazards.md rule R268). -/
inductive Reaches : Nat → State → State → Prop where
  | start {s s' : State} : Between s s' → Reaches 0 s s'
  | stepped {n : Nat} {s s' s'' t : State} : Reaches n s s' → step s' = .next s'' → Between s'' t → Reaches (n + 1) s t

/-- The host's abort policy (40_execution_engine.md rule R114; 60_exceptions.md rule R232: "Recovery/handling policy ... is
entirely the host's/harness's responsibility"): a step after which the host stops if the trace reports an error. The
hardware itself goes on. Log entry 14. -/
def watchedStep (s : State) : Host.Outcome State Fault Refusal :=
  match step s with
  | .next t =>
    match t.trace with
    | some tr =>
      if tr.fetchError then .fault (.fetchError tr.pc)
      else if tr.loadStoreError then .fault (.loadStoreError tr.r)
      else .next t
    | none => .next t
  | .fault f => .fault f
  | .refused r => .refused r

end Sys2Proof.Machine
end

