-- ==== Sys2Proof/Certificates/Slice0/Obligations.lean ====
section
/-! DEFINITION. The statements about the emulsiV CORE model, for the provers.

First the words the statements share, then the statements, in the order of OBLIGATIONS.json. Each docstring names the rule
of the spec its statement formalises; where a statement rests on a decision the spec marks as its own, or on a choice of
the model, the docstring says so and names the log entry. -/

namespace Sys2Proof.Statements

open Sys2Proof Sys2Proof.Machine

/-- The registers of `t` are those of `s` with `v` in the register the field `rd` names, a write to `x0` or beyond the
file being discarded (10_state.md rules R12, R13). -/
def RegisterWritten (s t : State) (rd : RegIdx) (v : Word) : Prop :=
  t.registerCount = s.registerCount ∧
    ∀ j, t.getX j = if j = rd.toNat ∧ j ≠ 0 ∧ j < s.registerCount then v else s.getX j

/-- Every register of `t` is that of `s`. -/
def RegistersKept (s t : State) : Prop :=
  t.registerCount = s.registerCount ∧ ∀ j, t.getX j = s.getX j

/-- Control after an instruction that goes to `resume` (40_execution_engine.md rule R110): when the sampled line is high
outside a handler, `mepc` takes `resume` unmasked, `pc` is 4 and the handler state is set; else `pc` takes `resume` with
its low two bits cleared and nothing else changes. Where `resume` is `pc + 4`, that `mepc` holds it to 32 bits is the spec's
decision D10 (log entry 9). -/
def ContinuesAt (s t : State) (resume : Word) : Prop :=
  if s.irqSample = true ∧ s.irqState = false then
    t.mepc = resume ∧ t.pc = 4#32 ∧ t.irqState = true
  else
    t.pc = resume &&& 0xFFFFFFFC#32 ∧ t.mepc = s.mepc ∧ t.irqState = s.irqState

/-- No device, no byte and no error flag is touched. -/
def BusUntouched (s t : State) : Prop :=
  t.devices = s.devices ∧ t.busError = s.busError ∧ ∀ address, t.bytesAt address = s.bytesAt address

/-- The trace record of `t` shows these operands, result, loaded value, decision and error
(40_execution_engine.md rule R112). -/
def TraceShows (t : State) (a b r l : Word) (taken loadStoreError : Bool) : Prop :=
  ∃ tr, t.trace = some tr ∧ tr.a = a ∧ tr.b = b ∧ tr.r = r ∧ tr.l = l ∧ tr.taken = taken ∧
    tr.loadStoreError = loadStoreError

/-- The instruction runs, puts `v` in `rd`, touches nothing else of registers and bus, and goes on at `pc + 4`; the trace
shows operands `a`, `b` and result `v` (41_integer_computational.md rule R140). -/
def Computes (i : Instr) (s : State) (rd : RegIdx) (a b v : Word) : Prop :=
  ∃ t, exec i s = .next t ∧ RegisterWritten s t rd v ∧ BusUntouched s t ∧ ContinuesAt s t (s.pc + 4#32) ∧
    TraceShows t a b v 0#32 false false

/-- The instruction runs, puts the link `pc + 4` in `rd` and goes to `a + b` (42_control_transfer.md rule R170). -/
def JumpsTo (i : Instr) (s : State) (rd : RegIdx) (a b : Word) : Prop :=
  ∃ t, exec i s = .next t ∧ RegisterWritten s t rd (s.pc + 4#32) ∧ BusUntouched s t ∧ ContinuesAt s t (a + b) ∧
    TraceShows t a b (a + b) 0#32 true false

/-- The instruction runs, writes no register, and goes to `pc + offset` if the condition holds, else to `pc + 4`; the
trace shows the target either way (42_control_transfer.md section 2, rule R179). -/
def BranchesIf (i : Instr) (s : State) (offset : BitVec 13) (condition : Bool) : Prop :=
  ∃ t, exec i s = .next t ∧ RegistersKept s t ∧ BusUntouched s t ∧
    ContinuesAt s t (if condition then s.pc + offset.signExtend 32 else s.pc + 4#32) ∧
    TraceShows t s.pc (offset.signExtend 32) (s.pc + offset.signExtend 32) 0#32 condition false

/-- The instruction runs and makes one bus read at `x[rs1] + imm`, whose value goes to `rd`; the devices and the error
flag are as that read leaves them, and every byte of memory reads as before (43_load_store.md rule R190). -/
def LoadsFromBus (i : Instr) (w : Width) (signed : Bool) (s : State) (rd rs1 : RegIdx) (imm : BitVec 12) : Prop :=
  let address := s.getX rs1.toNat + imm.signExtend 32
  s.effectiveAddress rs1 imm = address ∧
  ∃ t, exec i s = .next t ∧ RegisterWritten s t rd (s.busRead address w signed).1 ∧
    t.devices = (s.busRead address w signed).2.devices ∧ t.busError = (s.busRead address w signed).2.busError ∧
    (∀ x, t.bytesAt x = s.bytesAt x) ∧ ContinuesAt s t (s.pc + 4#32) ∧
    TraceShows t (s.getX rs1.toNat) (imm.signExtend 32) address (s.busRead address w signed).1 false t.busError

/-- The instruction runs and makes one bus write of `x[rs2]` at `x[rs1] + imm`: the devices and the error flag are as that
write leaves them, no register is written, and every byte outside the `n` stored ones reads as before
(43_load_store.md rule R190). -/
def StoresToBus (i : Instr) (w : Width) (n : Nat) (s : State) (rs2 rs1 : RegIdx) (imm : BitVec 12) : Prop :=
  let address := s.getX rs1.toNat + imm.signExtend 32
  s.effectiveAddress rs1 imm = address ∧
  ∃ t, exec i s = .next t ∧ RegistersKept s t ∧
    t.devices = (s.busWrite address w (s.getX rs2.toNat)).devices ∧
    t.busError = (s.busWrite address w (s.getX rs2.toNat)).busError ∧
    (∀ x, x < (s.effectiveAddress rs1 imm).toNat ∨ (s.effectiveAddress rs1 imm).toNat + n ≤ x →
      t.bytesAt x = s.bytesAt x) ∧
    ContinuesAt s t (s.pc + 4#32) ∧
    TraceShows t (s.getX rs1.toNat) (imm.signExtend 32) address 0#32 false t.busError

/-- The device at place `k` of the list, if it accepts the access at `address`, holds the low bytes of `v` there, the lowest
address taking bits 7:0, when it is a flat memory; a device that does not accept it is as it was. -/
def StoredInEveryDevice (s t : State) (address : Word) (w : Width) (n : Nat) (v : Word) : Prop :=
  t.devices.length = s.devices.length ∧
  ∀ (k : Nat) (d : Device), s.devices[k]? = some d →
    (d.accepts address.toNat w = false → t.devices[k]? = some d) ∧
    (d.accepts address.toNat w = true → ∀ data, d.body = .memory data →
      ∃ d' : Device, t.devices[k]? = some d' ∧ d'.base = d.base ∧ d'.size = d.size ∧
        (∀ j < n, d'.byteAt (address.toNat + j) = some (v.extractLsb' (8 * j) 8)) ∧
        ∀ x, x < address.toNat ∨ address.toNat + n ≤ x → d'.byteAt x = d.byteAt x)

/-- The first device of the list that accepts the access is the flat memory `d` with bytes `data`. -/
def AnsweredByMemory (s : State) (address : Word) (w : Width) (d : Device) (data : Memory) : Prop :=
  ∃ before rest, s.devices = before ++ d :: rest ∧ (∀ e ∈ before, e.accepts address.toNat w = false) ∧
    d.accepts address.toNat w = true ∧ d.body = .memory data

/-- No device of the list accepts the access. -/
def NoDeviceAccepts (s : State) (address : Word) (w : Width) : Prop :=
  ∀ d ∈ s.devices, d.accepts address.toNat w = false

/-- Step 8 for a load tag (40_execution_engine.md rule R109): the value of the bus read at the ALU result goes to `rd`; a
read no device accepts puts 0 there and touches no device. -/
def LoadWriteback (s t : State) (tr : Trace) (rd : RegIdx) (w : Width) (signed : Bool) : Prop :=
  RegisterWritten s t rd (s.busRead tr.r w signed).1 ∧ tr.l = (s.busRead tr.r w signed).1 ∧
    t.devices = (s.busRead tr.r w signed).2.devices ∧ t.busError = (s.busRead tr.r w signed).2.busError ∧
    (NoDeviceAccepts s tr.r w → RegisterWritten s t rd 0#32 ∧ t.devices = s.devices)

/-- Step 8 for a store tag (R109): `x2` goes to the bus at the ALU result; a write no device accepts changes none. -/
def StoreWriteback (s t : State) (tr : Trace) (x2 : Word) (w : Width) : Prop :=
  RegistersKept s t ∧ tr.l = 0#32 ∧ t.devices = (s.busWrite tr.r w x2).devices ∧
    t.busError = (s.busWrite tr.r w x2).busError ∧ (NoDeviceAccepts s tr.r w → t.devices = s.devices)

/-- The part of a device that no access and no reset changes: its range, its kind and its behaviour (20_memory.md rule
R36). -/
def deviceShape (d : Device) : Nat × Nat × Option Nat :=
  (d.base, d.size, match d.body with
    | .memory _ => none
    | .peripheral id _ => some id)

end Sys2Proof.Statements

open Sys2Proof Sys2Proof.Machine Sys2Proof.Statements

/-! ### Encoding and decoding (30_encoding.md) -/

/-- One word of each family, written out from the encodings of 30_encoding.md rules R73 and R81 (and the examples of the
family files), decodes to its instruction. Encodings are the spec's decisions D1, D2 (log entry 6). -/
def Obligations.WordsOfEachFamilyDecode : Prop :=
  decode 0xFFFFF2B7#32 = .lui 5 0xFFFFF ∧
  decode 0x0640006F#32 = .jal 0 100 ∧
  decode 0x007100E7#32 = .jalr 1 2 7 ∧
  decode 0xFE011CE3#32 = .bne 2 0 (-8) ∧
  decode 0xFFC0A103#32 = .lw 2 1 (-4) ∧
  decode 0x7E20AFA3#32 = .sw 2 1 2047 ∧
  decode 0x00308113#32 = .addi 2 1 3 ∧
  decode 0x41F0D193#32 = .srai 3 1 31 ∧
  decode 0x402081B3#32 = .sub 3 1 2 ∧
  decode 0x30200073#32 = .mret ∧
  decode 0x022081B3#32 = .invalid 0x022081B3

/-- Every well-formed instruction is read back from its word, with every operand at every value its encoding admits
(30_encoding.md rules R72 to R81; encodings are the spec's decisions D1, D2, log entry 6). -/
def Obligations.DecodingAnEncodedInstructionGivesItBack : Prop :=
  ∀ i : Instr, i.wf = true → decode (encode i) = i

/-- Every 32-bit word is the encoding of what it decodes to, and that is well-formed: no bit of a word is lost
(30_encoding.md rules R70, R83: the decoder is total; log entry 6). -/
def Obligations.EncodingADecodedWordGivesItBack : Prop :=
  ∀ w : Word, encode (decode w) = w ∧ (decode w).wf = true

/-- "a word selects the instruction iff `word & mask = match`" (30_encoding.md section 4): a word matches a row of the
table exactly when it decodes to that row's instruction. The table's values are the spec's decisions D1, D24 (log entry
6). -/
def Obligations.WordMatchesARowIffItDecodesToIt : Prop :=
  ∀ (w : Word), ∀ row ∈ opcodeTable, w &&& row.mask = row.pattern ↔ (decode w).mnemonic = row.name

/-- "The 38 pairs are pairwise disjoint (no word matches two)" (30_encoding.md section 4; log entry 6). -/
def Obligations.NoWordMatchesTwoRows : Prop :=
  opcodeTable.length = 38 ∧
  ∀ (w : Word), ∀ row ∈ opcodeTable, ∀ row' ∈ opcodeTable,
    w &&& row.mask = row.pattern → w &&& row'.mask = row'.pattern → row = row'

/-- A word that matches no row, and no other, is the record `invalid`: fields from their fixed positions, immediate 0, all
five tags none (30_encoding.md section 5; the spec's decisions D4, D5, D17, log entries 6 and 8). -/
def Obligations.UnmatchedWordIsTheInvalidRecord : Prop :=
  ∀ w : Word, ((∀ row ∈ opcodeTable, w &&& row.mask ≠ row.pattern) ↔ decode w = .invalid w) ∧
    (decode w = .invalid w → decodeRecord w =
      ⟨.invalid, w.extractLsb' 15 5, w.extractLsb' 20 5, w.extractLsb' 7 5, 0#32, ⟨.none, .none, .none, .none, .none⟩⟩)

/-- The record's register fields are the word's fixed bit positions for every word, and its immediate is its format's
bits, sign-extended (30_encoding.md sections 2 and 3; the spec's decisions D1, D17, log entries 6 and 8). -/
def Obligations.RecordHoldsTheFieldsOfTheWord : Prop :=
  ∀ w : Word,
    (decodeRecord w).rd = w.extractLsb' 7 5 ∧ (decodeRecord w).rs1 = w.extractLsb' 15 5 ∧
    (decodeRecord w).rs2 = w.extractLsb' 20 5 ∧
    ((decodeRecord w).name ∈ [Mnemonic.jalr, .lb, .lh, .lw, .lbu, .lhu, .addi, .slti, .sltiu, .xori, .ori, .andi, .slli,
      .srli, .srai] → (decodeRecord w).imm = (w.extractLsb' 20 12).signExtend 32) ∧
    ((decodeRecord w).name ∈ [Mnemonic.sb, .sh, .sw] →
      (decodeRecord w).imm = (w.extractLsb' 25 7 ++ w.extractLsb' 7 5).signExtend 32) ∧
    ((decodeRecord w).name ∈ [Mnemonic.beq, .bne, .blt, .bge, .bltu, .bgeu] →
      (decodeRecord w).imm = (w.extractLsb' 31 1 ++ w.extractLsb' 7 1 ++ w.extractLsb' 25 6 ++ w.extractLsb' 8 4
        ++ 0#1).signExtend 32) ∧
    ((decodeRecord w).name ∈ [Mnemonic.lui, .auipc] → (decodeRecord w).imm = w &&& 0xFFFFF000#32) ∧
    ((decodeRecord w).name = .jal →
      (decodeRecord w).imm = (w.extractLsb' 31 1 ++ w.extractLsb' 12 8 ++ w.extractLsb' 20 1 ++ w.extractLsb' 21 10
        ++ 0#1).signExtend 32) ∧
    ((decodeRecord w).name ∈ [Mnemonic.add, .sub, .sll, .slt, .sltu, .xor, .srl, .sra, .or, .and, .mret, .invalid] →
      (decodeRecord w).imm = 0#32)

/-! ### Registers, program counter, ALU -/

/-- Reading and writing the register file (10_state.md rules R12, R13): index 0 and indices from `N` on read 0 and their
writes are discarded; every other register reads what was last written to it. -/
def Obligations.RegisterFileReadAfterWrite : Prop :=
  (∀ (s : State) (i : Nat) (v : Word), i = 0 ∨ s.registerCount ≤ i → s.getX i = 0#32 ∧ s.setX i v = s) ∧
  ∀ (s : State) (i j : Nat) (v : Word), i ≠ 0 → i < s.registerCount →
    (s.setX i v).getX j = if j = i then v else s.getX j

/-- "`pc` is always a multiple of 4 after every `step` and after `reset`" (10_state.md rule R15), from every state, and every
write of `pc` clears its low two bits. -/
def Obligations.ProgramCounterIsAMultipleOfFour : Prop :=
  (∀ (s : State) (v : Word), s.setPc v = { s with pc := v &&& 0xFFFFFFFC#32 }) ∧
  (∀ s t : State, step s = .next t → t.pc.toNat % 4 = 0) ∧
  (∀ s : State, s.coreReset.pc.toNat % 4 = 0) ∧ State.reset.pc.toNat % 4 = 0

/-- Shifts use the low five bits of the amount (40_execution_engine.md rule R106): left is multiplication modulo 2^32,
logical right division of the unsigned reading, arithmetic right division of the signed reading rounding down. -/
def Obligations.ShiftsUseTheLowFiveBitsOfTheAmount : Prop :=
  ∀ a b : Word,
    (alu .sll a b).toNat = a.toNat * 2 ^ (b.toNat % 32) % 2 ^ 32 ∧
    (alu .srl a b).toNat = a.toNat / 2 ^ (b.toNat % 32) ∧
    (alu .sra a b).toInt = a.toInt / 2 ^ (b.toNat % 32)

/-- The comparisons of the ALU give 1 or 0 by the signed and the unsigned reading (40_execution_engine.md rule R107). -/
def Obligations.ComparisonsGiveOneOrZero : Prop :=
  ∀ a b : Word,
    (a.toInt < b.toInt → alu .slt a b = 1#32) ∧ (b.toInt ≤ a.toInt → alu .slt a b = 0#32) ∧
    (a.toNat < b.toNat → alu .sltu a b = 1#32) ∧ (b.toNat ≤ a.toNat → alu .sltu a b = 0#32) ∧
    alu .sltu 0xFFFFFFFF#32 1#32 = 0#32

/-! ### The step (40_execution_engine.md) -/

/-- A step samples the interrupt line, fetches, decodes, and runs the decoded instruction (40_execution_engine.md rules
R100 to R102); when the flat memory answers the fetch, the four bytes at `pc` decode to the instruction the step runs,
and the fetch changes nothing but the error flag and the sampled values (log entry 12). -/
def Obligations.StepRunsTheDecodedInstruction : Prop :=
  (∀ (s bus : State) (word : Word) (i : Instr), s.busRead s.pc .word false = (word, bus) → decode word = i →
    step s = exec i { bus with irqSample := s.devices.any Device.irq, fetchError := bus.busError }) ∧
  ∀ (s : State) (d : Device) (data : Memory) (i : Instr), AnsweredByMemory s s.pc .word d data →
    decodeBytes [data.byte (s.pc.toNat - d.base), data.byte (s.pc.toNat - d.base + 1),
      data.byte (s.pc.toNat - d.base + 2), data.byte (s.pc.toNat - d.base + 3)] = .ok (i, []) →
    step s = exec i { s with busError := false, irqSample := s.devices.any Device.irq, fetchError := false }

/-- "A step always completes: it never faults, halts, stalls, retries or throws, whatever the word fetched and whatever the
bus answers" (40_execution_engine.md section 1), for every instruction and from every state. -/
def Obligations.EveryStepCompletes : Prop :=
  (∀ (i : Instr) (s : State), ∃ t, exec i s = .next t) ∧ ∀ s : State, ∃ t, step s = .next t

/-- The meanings of the instructions, written from the family files, are the step engine over the control tags
(40_execution_engine.md rule R115: "the two agree on every word"). The tags of each mnemonic are the spec's decisions D1 and
D2, the ALU and branch readings its D18, the values of `none` tags and of fields that do not apply its D3, D16 and D17 (log
entries 6, 7 and 8). -/
def Obligations.MeaningsAgreeWithTheTagEngine : Prop :=
  (∀ (i : Instr) (s : State), exec i s = .next (engine i.record s)) ∧
  ∀ s : State, step s = .next (engine (decodeRecord s.fetch.1) s.fetch.2)

/-- Steps 1 to 3 (40_execution_engine.md rules R101, R102): the trace of a step (its fields are rule R112's) shows the `pc`
before it, `incPc`, the word at `pc` decoded (0 when no device accepts the fetch), the fetch error, and in `irq` the entry
decision from the line as it was before the fetch. That `incPc` is held to 32 bits in the trace is the spec's decision D10
(log entry 9). -/
def Obligations.StepSamplesThenFetches : Prop :=
  ∀ s : State, ∃ t tr, step s = .next t ∧ t.trace = some tr ∧
    tr.pc = s.pc ∧ tr.incPc = s.pc + 4#32 ∧
    tr.irq = (s.devices.any Device.irq && !s.irqState) ∧
    tr.instr = decodeRecord (s.busRead s.pc .word false).1 ∧
    (NoDeviceAccepts s s.pc .word → tr.fetchError = true ∧ (s.busRead s.pc .word false).1 = 0#32) ∧
    (¬NoDeviceAccepts s s.pc .word → tr.fetchError = false)

/-- Step 8 by tag (40_execution_engine.md rule R109), for every instruction and whether or not an interrupt is entered. That
the trace's `l` is 0 for a store is the spec's decision D16 (log entry 8). -/
def Obligations.WritebackFollowsTheTag : Prop :=
  ∀ (i : Instr) (s : State), ∃ t tr, exec i s = .next t ∧ t.trace = some tr ∧
    match i.record.tags.wbMem with
    | .r => RegisterWritten s t i.record.rd tr.r ∧ BusUntouched s t
    | .pcPlus => RegisterWritten s t i.record.rd (s.pc + 4#32) ∧ BusUntouched s t
    | .lb => LoadWriteback s t tr i.record.rd .byte true
    | .lh => LoadWriteback s t tr i.record.rd .half true
    | .lw => LoadWriteback s t tr i.record.rd .word true
    | .lbu => LoadWriteback s t tr i.record.rd .byte false
    | .lhu => LoadWriteback s t tr i.record.rd .half false
    | .sb => StoreWriteback s t tr (s.getX i.record.rs2.toNat) .byte
    | .sh => StoreWriteback s t tr (s.getX i.record.rs2.toNat) .half
    | .sw => StoreWriteback s t tr (s.getX i.record.rs2.toNat) .word
    | .none => RegistersKept s t ∧ BusUntouched s t ∧ tr.l = 0#32

/-- The control-flow update in its priority order (40_execution_engine.md rule R110), for every instruction: interrupt
entry, then `mret`, then a taken transfer, then fall-through; every write of `pc` masked, `mepc` unmasked. That entry in
the step of an `mret` saves `pc + 4` is the model's reading after 90_conflicts.md C4 (log entry 17), and that `mepc` and
`incPc` are held to 32 bits is the spec's decision D10 (log entry 9). -/
def Obligations.ControlFlowFollowsThePriorityOrder : Prop :=
  ∀ (i : Instr) (s : State), ∃ t tr, exec i s = .next t ∧ t.trace = some tr ∧ (i = .mret → tr.taken = false) ∧
    if s.irqSample = true ∧ s.irqState = false then
      t.pc = 4#32 ∧ t.mepc = (if tr.taken then tr.r else s.pc + 4#32) ∧ t.irqState = true
    else if i = .mret then
      t.pc = s.mepc &&& 0xFFFFFFFC#32 ∧ t.mepc = s.mepc ∧ t.irqState = false
    else if tr.taken then
      t.pc = tr.r &&& 0xFFFFFFFC#32 ∧ t.mepc = s.mepc ∧ t.irqState = s.irqState
    else
      t.pc = (s.pc + 4#32) &&& 0xFFFFFFFC#32 ∧ t.mepc = s.mepc ∧ t.irqState = s.irqState

/-- `loadStoreError` is the bus's error after a load or store, and false for every other instruction whatever `bus.error`
holds (40_execution_engine.md rule R111). -/
def Obligations.LoadStoreErrorIsTheErrorOfTheAccess : Prop :=
  ∀ (i : Instr) (s : State), ∃ t tr, exec i s = .next t ∧ t.trace = some tr ∧
    (i.record.tags.wbMem ∈ [WbMem.lb, .lh, .lw, .lbu, .lhu, .sb, .sh, .sw] → tr.loadStoreError = t.busError) ∧
    (i.record.tags.wbMem ∈ [WbMem.r, .pcPlus, .none] → tr.loadStoreError = false)

/-- The trace record (40_execution_engine.md section 2): the decoded record, the state's values, and the operands, the
result and the decision its tags select. The values for a `none` tag and for `l` of a non-load are the spec's decisions
D3, D16 (log entry 8), the 32 bits of `incPc` its D10 (log entry 9). -/
def Obligations.TraceShowsTheValuesOfTheStep : Prop :=
  ∀ (i : Instr) (s : State), ∃ t tr, exec i s = .next t ∧ t.trace = some tr ∧
    tr.instr = i.record ∧ tr.pc = s.pc ∧ tr.incPc = s.pc + 4#32 ∧ tr.irq = (s.irqSample && !s.irqState) ∧
    tr.x1 = s.getX i.record.rs1.toNat ∧ tr.x2 = s.getX i.record.rs2.toNat ∧ tr.fetchError = s.fetchError ∧
    tr.a = (match i.record.tags.src1 with | .pc => s.pc | .x1 => tr.x1 | .none => 0#32) ∧
    tr.b = (match i.record.tags.src2 with | .imm => i.record.imm | .x2 => tr.x2 | .none => 0#32) ∧
    tr.r = alu i.record.tags.aluOp tr.a tr.b ∧ tr.taken = branchTaken i.record.tags.branch tr.x1 tr.x2 ∧
    (i.record.tags.wbMem ∉ [WbMem.lb, .lh, .lw, .lbu, .lhu] → tr.l = 0#32)

/-- The trace is returned for observation only and "does not feed back into any state" (40_execution_engine.md section 2):
neither it nor the values sampled in an earlier step can change what a step does (log entry 12). -/
def Obligations.StepIgnoresTheTraceAndOldSamples : Prop :=
  ∀ (s : State) (trace : Option Trace) (irqSample fetchError : Bool),
    step { s with trace := trace, irqSample := irqSample, fetchError := fetchError } = step s

/-- A failed fetch (40_execution_engine.md section 3, rule R114): the word is 0, an `invalid` word; the step changes no
register and no device and goes on at `pc + 4`, or enters the interrupt, and the trace and `bus.error` report the error.
That the word 0 is `invalid` is the spec's decision D4 (log entry 6). -/
def Obligations.FailedFetchOnlyAdvances : Prop :=
  ∀ s : State, NoDeviceAccepts s s.pc .word → ∃ t tr, step s = .next t ∧ t.trace = some tr ∧
    RegistersKept s t ∧ t.devices = s.devices ∧ t.busError = true ∧
    ContinuesAt { s with irqSample := s.devices.any Device.irq } t (s.pc + 4#32) ∧
    tr.fetchError = true ∧ tr.loadStoreError = false ∧ tr.instr.name = .invalid ∧ tr.taken = false

/-! ### The interrupt (60_exceptions.md) -/

/-- Interrupt entry (60_exceptions.md rule R236): a step that starts with a device's line high outside a handler ends with
`pc` exactly 4, `mepc` the branch target if taken and else `incPc`, in the handler; and the registers, the devices and the
error flag are what the same instruction leaves when the line is low. That this holds of `mret` too, which then saves
`pc + 4`, is the model's reading after 90_conflicts.md C4 (log entry 17), and that `mepc` is held to 32 bits is the spec's
decision D10 (log entry 9). -/
def Obligations.HighLineEntersTheHandler : Prop :=
  (∀ s : State, (∃ d ∈ s.devices, d.irq = true) → s.irqState = false →
    ∃ t tr, step s = .next t ∧ t.trace = some tr ∧ tr.irq = true ∧ t.pc = 4#32 ∧ t.irqState = true ∧
      t.mepc = (if tr.taken then tr.r else s.pc + 4#32)) ∧
  ∀ (i : Instr) (s : State), s.irqState = false →
    ∃ t t', exec i { s with irqSample := true } = .next t ∧ exec i { s with irqSample := false } = .next t' ∧
      t.regs = t'.regs ∧ t.devices = t'.devices ∧ t.busError = t'.busError

/-- No nesting (60_exceptions.md rule R242): while `irqState` is true no step enters the interrupt, whatever the line,
`mepc` is not overwritten, and only `mret` leaves the handler. -/
def Obligations.HandlerIsNotReentered : Prop :=
  ∀ s : State, s.irqState = true → ∃ t tr, step s = .next t ∧ t.trace = some tr ∧ tr.irq = false ∧ t.mepc = s.mepc ∧
    t.irqState = (if tr.instr.name = .mret then false else true)

/-- The handler state changes only by interrupt entry and by `mret`, in a step, and by a core reset that clears it; no
other operation of the host changes it (60_exceptions.md section 6). -/
def Obligations.OnlyEntryAndMretChangeTheHandlerState : Prop :=
  (∀ s t : State, step s = .next t → s.irqState = false → t.irqState = true →
    (∃ d ∈ s.devices, d.irq = true) ∧ t.pc = 4#32) ∧
  (∀ s t : State, step s = .next t → s.irqState = true → t.irqState = false →
    decode (s.busRead s.pc .word false).1 = .mret ∧ t.pc = s.mepc &&& 0xFFFFFFFC#32) ∧
  ∀ (op : HostOp) (s t : State), hostStep op s = .next t →
    t.irqState = (if op = .coreReset ∧ Config.resetClearsIrqState = true then false else s.irqState)

/-! ### Results, frames and completion, family by family -/

/-- `lui` and `auipc` (41_integer_computational.md section 1; encodings and tags are the spec's decisions D1, D2, D18, log
entries 6 and 7). -/
def Obligations.UpperImmediatesLoadAndAddToPc : Prop :=
  ∀ (s : State) (rd : RegIdx) (imm20 : BitVec 20),
    Computes (.lui rd imm20) s rd s.pc (imm20 ++ 0#12) (imm20 ++ 0#12) ∧
    Computes (.auipc rd imm20) s rd s.pc (imm20 ++ 0#12) (s.pc + (imm20 ++ 0#12))

/-- `addi`, `add` and `sub` (41_integer_computational.md sections 2 and 3): addition and subtraction modulo 2^32 (log entry
6). -/
def Obligations.AdditionAndSubtractionWrap : Prop :=
  ∀ (s : State) (rd rs1 rs2 : RegIdx) (imm : BitVec 12),
    Computes (.addi rd rs1 imm) s rd (s.getX rs1.toNat) (imm.signExtend 32) (s.getX rs1.toNat + imm.signExtend 32) ∧
    Computes (.add rd rs1 rs2) s rd (s.getX rs1.toNat) (s.getX rs2.toNat) (s.getX rs1.toNat + s.getX rs2.toNat) ∧
    Computes (.sub rd rs1 rs2) s rd (s.getX rs1.toNat) (s.getX rs2.toNat) (s.getX rs1.toNat - s.getX rs2.toNat)

/-- `xori`, `ori`, `andi`, `xor`, `or` and `and` (41_integer_computational.md sections 2 and 3): bit by bit, a reading the
spec marks as its decision D18 (log entries 6 and 7). -/
def Obligations.LogicalInstructionsWorkBitByBit : Prop :=
  ∀ (s : State) (rd rs1 rs2 : RegIdx) (imm : BitVec 12),
    Computes (.xori rd rs1 imm) s rd (s.getX rs1.toNat) (imm.signExtend 32) (s.getX rs1.toNat ^^^ imm.signExtend 32) ∧
    Computes (.ori rd rs1 imm) s rd (s.getX rs1.toNat) (imm.signExtend 32) (s.getX rs1.toNat ||| imm.signExtend 32) ∧
    Computes (.andi rd rs1 imm) s rd (s.getX rs1.toNat) (imm.signExtend 32) (s.getX rs1.toNat &&& imm.signExtend 32) ∧
    Computes (.xor rd rs1 rs2) s rd (s.getX rs1.toNat) (s.getX rs2.toNat) (s.getX rs1.toNat ^^^ s.getX rs2.toNat) ∧
    Computes (.or rd rs1 rs2) s rd (s.getX rs1.toNat) (s.getX rs2.toNat) (s.getX rs1.toNat ||| s.getX rs2.toNat) ∧
    Computes (.and rd rs1 rs2) s rd (s.getX rs1.toNat) (s.getX rs2.toNat) (s.getX rs1.toNat &&& s.getX rs2.toNat)

/-- `slli`, `srli` and `srai` (41_integer_computational.md section 2): multiplication modulo 2^32, division of the unsigned
reading, division of the signed reading rounding down; the trace's operand B is `shamt`, or `0x400 + shamt` for `srai`
(log entry 6). -/
def Obligations.ShiftImmediatesShiftByShamt : Prop :=
  ∀ (s : State) (rd rs1 : RegIdx) (shamt : BitVec 5),
    Computes (.slli rd rs1 shamt) s rd (s.getX rs1.toNat) (shamt.setWidth 32)
      (BitVec.ofNat 32 ((s.getX rs1.toNat).toNat * 2 ^ shamt.toNat)) ∧
    Computes (.srli rd rs1 shamt) s rd (s.getX rs1.toNat) (shamt.setWidth 32)
      (BitVec.ofNat 32 ((s.getX rs1.toNat).toNat / 2 ^ shamt.toNat)) ∧
    Computes (.srai rd rs1 shamt) s rd (s.getX rs1.toNat) (0x400#32 + shamt.setWidth 32)
      (BitVec.ofInt 32 ((s.getX rs1.toNat).toInt / 2 ^ shamt.toNat))

/-- `sll`, `srl` and `sra` (41_integer_computational.md section 3): the amount is `x[rs2]` modulo 32 (log entry 6). -/
def Obligations.RegisterShiftsTakeTheAmountModulo32 : Prop :=
  ∀ (s : State) (rd rs1 rs2 : RegIdx),
    Computes (.sll rd rs1 rs2) s rd (s.getX rs1.toNat) (s.getX rs2.toNat)
      (BitVec.ofNat 32 ((s.getX rs1.toNat).toNat * 2 ^ ((s.getX rs2.toNat).toNat % 32))) ∧
    Computes (.srl rd rs1 rs2) s rd (s.getX rs1.toNat) (s.getX rs2.toNat)
      (BitVec.ofNat 32 ((s.getX rs1.toNat).toNat / 2 ^ ((s.getX rs2.toNat).toNat % 32))) ∧
    Computes (.sra rd rs1 rs2) s rd (s.getX rs1.toNat) (s.getX rs2.toNat)
      (BitVec.ofInt 32 ((s.getX rs1.toNat).toInt / 2 ^ ((s.getX rs2.toNat).toNat % 32)))

/-- `slti`, `sltiu`, `slt` and `sltu` (41_integer_computational.md sections 2 and 3): 1 or 0 by the signed or the unsigned
reading; the immediate of `sltiu` is sign-extended first (log entry 6). -/
def Obligations.SetIfLessGivesOneOrZero : Prop :=
  ∀ (s : State) (rd rs1 rs2 : RegIdx) (imm : BitVec 12),
    Computes (.slti rd rs1 imm) s rd (s.getX rs1.toNat) (imm.signExtend 32)
      (if (s.getX rs1.toNat).toInt < (imm.signExtend 32).toInt then 1#32 else 0#32) ∧
    Computes (.sltiu rd rs1 imm) s rd (s.getX rs1.toNat) (imm.signExtend 32)
      (if (s.getX rs1.toNat).toNat < (imm.signExtend 32).toNat then 1#32 else 0#32) ∧
    Computes (.slt rd rs1 rs2) s rd (s.getX rs1.toNat) (s.getX rs2.toNat)
      (if (s.getX rs1.toNat).toInt < (s.getX rs2.toNat).toInt then 1#32 else 0#32) ∧
    Computes (.sltu rd rs1 rs2) s rd (s.getX rs1.toNat) (s.getX rs2.toNat)
      (if (s.getX rs1.toNat).toNat < (s.getX rs2.toNat).toNat then 1#32 else 0#32)

/-- `jal` and `jalr` (42_control_transfer.md section 1): the target from `pc` or from `x[rs1]` as it was before the link is
written, the link `pc + 4` to `rd`; two low bits of the target are cleared on the way into `pc` (log entry 6). -/
def Obligations.JumpsLinkAndTransfer : Prop :=
  ∀ (s : State) (rd rs1 : RegIdx) (offset : BitVec 21) (imm : BitVec 12),
    JumpsTo (.jal rd offset) s rd s.pc (offset.signExtend 32) ∧
    JumpsTo (.jalr rd rs1 imm) s rd (s.getX rs1.toNat) (imm.signExtend 32)

/-- `beq`, `bne`, `blt`, `bge`, `bltu` and `bgeu` (42_control_transfer.md section 2): equality, and the signed and unsigned
orders, of `x[rs1]` and `x[rs2]`; the readings of `eq`, `ne`, `lt`, `ge` are the spec's decision D18 (log entries 6 and
7). -/
def Obligations.BranchesCompareRegisters : Prop :=
  ∀ (s : State) (rs1 rs2 : RegIdx) (offset : BitVec 13),
    BranchesIf (.beq rs1 rs2 offset) s offset (decide (s.getX rs1.toNat = s.getX rs2.toNat)) ∧
    BranchesIf (.bne rs1 rs2 offset) s offset (decide (s.getX rs1.toNat ≠ s.getX rs2.toNat)) ∧
    BranchesIf (.blt rs1 rs2 offset) s offset (decide ((s.getX rs1.toNat).toInt < (s.getX rs2.toNat).toInt)) ∧
    BranchesIf (.bge rs1 rs2 offset) s offset (decide ((s.getX rs2.toNat).toInt ≤ (s.getX rs1.toNat).toInt)) ∧
    BranchesIf (.bltu rs1 rs2 offset) s offset (decide ((s.getX rs1.toNat).toNat < (s.getX rs2.toNat).toNat)) ∧
    BranchesIf (.bgeu rs1 rs2 offset) s offset (decide ((s.getX rs2.toNat).toNat ≤ (s.getX rs1.toNat).toNat))

/-- `lb`, `lh`, `lw`, `lbu` and `lhu` (43_load_store.md section 1): one bus read of 1, 2, 4, 1, 2 bytes, signed or not, at
any alignment, also when `rd` is `x0` (log entry 6). -/
def Obligations.LoadsReadTheBus : Prop :=
  ∀ (s : State) (rd rs1 : RegIdx) (imm : BitVec 12),
    LoadsFromBus (.lb rd rs1 imm) .byte true s rd rs1 imm ∧
    LoadsFromBus (.lh rd rs1 imm) .half true s rd rs1 imm ∧
    LoadsFromBus (.lw rd rs1 imm) .word true s rd rs1 imm ∧
    LoadsFromBus (.lbu rd rs1 imm) .byte false s rd rs1 imm ∧
    LoadsFromBus (.lhu rd rs1 imm) .half false s rd rs1 imm

/-- The value a load gets from a flat memory (43_load_store.md sections 1 and 3): the bytes at the address, the lowest in
bits 7:0, sign- or zero-extended; no device changes and no error is flagged (log entry 6). -/
def Obligations.LoadsFromMemoryExtendItsBytes : Prop :=
  ∀ (s : State) (d : Device) (data : Memory) (rd rs1 : RegIdx) (imm : BitVec 12),
    (AnsweredByMemory s (s.effectiveAddress rs1 imm) .byte d data →
      (∃ t, exec (.lb rd rs1 imm) s = .next t ∧ t.devices = s.devices ∧ t.busError = false ∧
        RegisterWritten s t rd ((data.byte ((s.effectiveAddress rs1 imm).toNat - d.base)).signExtend 32)) ∧
      ∃ t, exec (.lbu rd rs1 imm) s = .next t ∧ t.devices = s.devices ∧ t.busError = false ∧
        RegisterWritten s t rd ((data.byte ((s.effectiveAddress rs1 imm).toNat - d.base)).setWidth 32)) ∧
    (AnsweredByMemory s (s.effectiveAddress rs1 imm) .half d data →
      (∃ t, exec (.lh rd rs1 imm) s = .next t ∧ t.devices = s.devices ∧ t.busError = false ∧
        RegisterWritten s t rd ((data.byte ((s.effectiveAddress rs1 imm).toNat - d.base + 1) ++
          data.byte ((s.effectiveAddress rs1 imm).toNat - d.base)).signExtend 32)) ∧
      ∃ t, exec (.lhu rd rs1 imm) s = .next t ∧ t.devices = s.devices ∧ t.busError = false ∧
        RegisterWritten s t rd ((data.byte ((s.effectiveAddress rs1 imm).toNat - d.base + 1) ++
          data.byte ((s.effectiveAddress rs1 imm).toNat - d.base)).setWidth 32)) ∧
    (AnsweredByMemory s (s.effectiveAddress rs1 imm) .word d data →
      ∃ t, exec (.lw rd rs1 imm) s = .next t ∧ t.devices = s.devices ∧ t.busError = false ∧
        RegisterWritten s t rd (data.byte ((s.effectiveAddress rs1 imm).toNat - d.base + 3) ++
          data.byte ((s.effectiveAddress rs1 imm).toNat - d.base + 2) ++
          data.byte ((s.effectiveAddress rs1 imm).toNat - d.base + 1) ++
          data.byte ((s.effectiveAddress rs1 imm).toNat - d.base)))

/-- `sb`, `sh` and `sw` (43_load_store.md section 2): one bus write of `x[rs2]` of 1, 2, 4 bytes at any alignment; no
register written; every byte outside the stored ones as before (log entry 6). -/
def Obligations.StoresWriteTheBus : Prop :=
  ∀ (s : State) (rs2 rs1 : RegIdx) (imm : BitVec 12),
    StoresToBus (.sb rs2 rs1 imm) .byte 1 s rs2 rs1 imm ∧
    StoresToBus (.sh rs2 rs1 imm) .half 2 s rs2 rs1 imm ∧
    StoresToBus (.sw rs2 rs1 imm) .word 4 s rs2 rs1 imm

/-- What a store leaves in the devices (43_load_store.md section 2): every flat memory that accepts it holds the low 1, 2 or
4 bytes of `x[rs2]`, little-endian, and is otherwise as before; every device that does not accept it is untouched. In a
state whose memories are in canonical form (log entries 6 and 15). -/
def Obligations.StoresReachEveryAcceptingMemory : Prop :=
  ∀ (s : State) (rs2 rs1 : RegIdx) (imm : BitVec 12), s.Inv →
    (∃ t, exec (.sb rs2 rs1 imm) s = .next t ∧
      StoredInEveryDevice s t (s.effectiveAddress rs1 imm) .byte 1 (s.getX rs2.toNat)) ∧
    (∃ t, exec (.sh rs2 rs1 imm) s = .next t ∧
      StoredInEveryDevice s t (s.effectiveAddress rs1 imm) .half 2 (s.getX rs2.toNat)) ∧
    ∃ t, exec (.sw rs2 rs1 imm) s = .next t ∧
      StoredInEveryDevice s t (s.effectiveAddress rs1 imm) .word 4 (s.getX rs2.toNat)

/-- A load or store that no device accepts (43_load_store.md, rule R190; 40_execution_engine.md section 3): the trace and
`bus.error` report it, the load puts 0 in `rd`, the store writes nothing, and the program goes on at `pc + 4` (log entry
6). -/
def Obligations.FailedAccessesOnlyReport : Prop :=
  ∀ (s : State) (rd rs1 rs2 : RegIdx) (imm : BitVec 12),
    let address := s.effectiveAddress rs1 imm
    let failedLoad (i : Instr) : Prop := ∃ t, exec i s = .next t ∧ RegisterWritten s t rd 0#32 ∧
      t.devices = s.devices ∧ t.busError = true ∧ ContinuesAt s t (s.pc + 4#32) ∧
      TraceShows t (s.getX rs1.toNat) (imm.signExtend 32) address 0#32 false true
    let failedStore (i : Instr) : Prop := ∃ t, exec i s = .next t ∧ RegistersKept s t ∧
      t.devices = s.devices ∧ t.busError = true ∧ ContinuesAt s t (s.pc + 4#32) ∧
      TraceShows t (s.getX rs1.toNat) (imm.signExtend 32) address 0#32 false true
    (NoDeviceAccepts s address .byte →
      failedLoad (.lb rd rs1 imm) ∧ failedLoad (.lbu rd rs1 imm) ∧ failedStore (.sb rs2 rs1 imm)) ∧
    (NoDeviceAccepts s address .half →
      failedLoad (.lh rd rs1 imm) ∧ failedLoad (.lhu rd rs1 imm) ∧ failedStore (.sh rs2 rs1 imm)) ∧
    (NoDeviceAccepts s address .word → failedLoad (.lw rd rs1 imm) ∧ failedStore (.sw rs2 rs1 imm))

/-- `mret` (44_system.md section 1): outside an interrupt entry `pc` takes `mepc` with its low two bits dropped, `mepc` stays
and the handler state is cleared, in either state; when an interrupt is entered in the same step, entry wins and saves
`pc + 4` (60_exceptions.md section 5), which is the model's reading after 90_conflicts.md C4 (log entry 17), held to 32
bits by the spec's decision D10 (log entry 9). No register, byte or flag changes. The word and name of `mret` are the spec's
decisions D1, D24, the zero trace values its D3 (log entries 6 and 8). -/
def Obligations.MretReturnsUnlessAnInterruptEnters : Prop :=
  ∀ s : State, ∃ t, exec .mret s = .next t ∧ RegistersKept s t ∧ BusUntouched s t ∧
    TraceShows t 0#32 0#32 0#32 0#32 false false ∧
    (s.irqSample = true ∧ s.irqState = false → t.pc = 4#32 ∧ t.mepc = s.pc + 4#32 ∧ t.irqState = true) ∧
    (s.irqSample = false ∨ s.irqState = true →
      t.pc = s.mepc &&& 0xFFFFFFFC#32 ∧ t.mepc = s.mepc ∧ t.irqState = false)

/-- Every word that is no instruction (44_system.md section 2) is a no-operation that goes on at `pc + 4`: `fence`, `ecall`,
`ebreak`, `wfi`, `csrrw`, the words of other extensions, and 0. The spec marks this as its decisions D4, D5 (log entry
6). -/
def Obligations.UnrecognisedWordsDoNothing : Prop :=
  (∀ (w : Word) (s : State), ∃ t, exec (.invalid w) s = .next t ∧ RegistersKept s t ∧ BusUntouched s t ∧
    ContinuesAt s t (s.pc + 4#32) ∧ TraceShows t 0#32 0#32 0#32 0#32 false false) ∧
  ∀ w ∈ [0x00000000#32, 0xFFFFFFFF#32, 0x0FF0000F#32, 0x0000100F#32, 0x00000073#32, 0x00100073#32, 0x10500073#32,
    0x10200073#32, 0x341110F3#32, 0x022081B3#32, 0x02009193#32, 0x00009067#32, 0x302000F3#32, 0x00000001#32],
    decode w = .invalid w

/-! ### The bus and memory (20_memory.md) -/

/-- `Bus.read` (20_memory.md rule R44): no accepting device, error and 0; else the first accepting device alone is read, in
list order, and the error is cleared. -/
def Obligations.BusReadGoesToTheFirstAcceptingDevice : Prop :=
  ∀ (s : State) (address : Word) (w : Width) (signed : Bool),
    (NoDeviceAccepts s address w → s.busRead address w signed = (0#32, { s with busError := true })) ∧
    ∀ (before rest : List Device) (d : Device), s.devices = before ++ d :: rest →
      (∀ e ∈ before, e.accepts address.toNat w = false) → d.accepts address.toNat w = true →
      s.busRead address w signed = ((d.read address.toNat w signed).1,
        { s with devices := before ++ (d.read address.toNat w signed).2 :: rest, busError := false })

/-- `Bus.write` (20_memory.md rule R45): no accepting device, error and nothing written; else every accepting device is
written, the others are as they were, and the error is cleared. -/
def Obligations.BusWriteGoesToEveryAcceptingDevice : Prop :=
  ∀ (s : State) (address : Word) (w : Width) (v : Word),
    (NoDeviceAccepts s address w → s.busWrite address w v = { s with busError := true }) ∧
    (¬NoDeviceAccepts s address w →
      (s.busWrite address w v).busError = false ∧ (s.busWrite address w v).devices.length = s.devices.length ∧
      ∀ (k : Nat) (d : Device), s.devices[k]? = some d → (s.busWrite address w v).devices[k]? =
        some (if d.accepts address.toNat w then d.write address.toNat w v else d))

/-- Holes, boundaries and the top of the address space (20_memory.md rules R50, R51): an access is serviced only by a device
that holds all its bytes, so one that leaves every device, or the address space, is an error. The latter is the spec's
decision D11 (log entry 10). -/
def Obligations.AccessNeedsADeviceThatHoldsAllItsBytes : Prop :=
  ∀ (s : State) (address : Word) (w : Width) (n : Nat), (w, n) ∈ [(Width.byte, 1), (.half, 2), (.word, 4)] → s.Inv →
    (∀ d ∈ s.devices, d.accepts address.toNat w = true ↔
      ∀ j < n, d.base ≤ address.toNat + j ∧ address.toNat + j < d.base + d.size) ∧
    (2 ^ 32 < address.toNat + n → NoDeviceAccepts s address w)

/-- `bus.error` (10_state.md rule R21): every access of the bus sets or clears it and no other operation of the host writes
it; after a step it is the outcome of the load or store if the instruction made one, and of the fetch otherwise; and what it
held before the step never alters the step. That `Core.reset()` and `Bus.reset()` leave it is the spec's decision D9 (log
entry 4). -/
def Obligations.BusErrorIsTheOutcomeOfTheLastAccess : Prop :=
  (∀ (s : State) (address : Word) (w : Width) (signed : Bool),
    (s.busRead address w signed).2.busError = true ↔ NoDeviceAccepts s address w) ∧
  (∀ (s : State) (address : Word) (w : Width) (v : Word),
    (s.busWrite address w v).busError = true ↔ NoDeviceAccepts s address w) ∧
  (∀ s : State, ∃ t tr, step s = .next t ∧ t.trace = some tr ∧
    t.busError = (tr.loadStoreError || (tr.fetchError &&
      decide (tr.instr.tags.wbMem ∈ [WbMem.r, .pcPlus, .none])))) ∧
  (∀ (op : HostOp) (s t : State), hostStep op s = .next t → (∀ a n sg, op ≠ .busRead a n sg) →
    (∀ a n v, op ≠ .busWrite a n v) → t.busError = s.busError) ∧
  ∀ (s : State) (b : Bool), step { s with busError := b } = step s

/-- The flat memory device (20_memory.md rule R43): little-endian bytes, a write touches only its own bytes, a read changes
nothing, reset changes nothing, and its line is low. The canonical form, which every write keeps, is the model's own
representation of the byte array (log entry 15). -/
def Obligations.FlatMemoryIsLittleEndianBytes : Prop :=
  (∀ (size offset : Nat) (m : Memory) (w : Width) (v : Word) (n : Nat),
    (w, n) ∈ [(Width.byte, 1), (.half, 2), (.word, 4)] → m.wf size = true → offset + n ≤ size →
    (m.localWrite offset w v).wf size = true ∧
    (∀ j < n, (m.localWrite offset w v).byte (offset + j) = v.extractLsb' (8 * j) 8) ∧
    (∀ x, x < offset ∨ offset + n ≤ x → (m.localWrite offset w v).byte x = m.byte x) ∧
    (m.localRead offset w).toNat = ((List.range n).map fun j => (m.byte (offset + j)).toNat * 2 ^ (8 * j)).sum) ∧
  ∀ (m : Memory) (offset : Nat) (w : Width) (v : Word),
    (DeviceBody.memory m).localRead offset w = (m.localRead offset w, .memory m) ∧
    (DeviceBody.memory m).localWrite offset w v = .memory (m.localWrite offset w v) ∧
    (DeviceBody.memory m).reset = .memory m ∧ (DeviceBody.memory m).irq = false

/-- Mixed widths and coherent fetch (20_memory.md rules R52, R58, which the spec marks as its derivations): a word written
where the first accepting device is a flat memory is read back whole, and in every part whose access the same devices
accept; and it is the word the next fetch from there finds. -/
def Obligations.WrittenWordIsReadInPartsAndFetched : Prop :=
  ∀ (s : State) (address v : Word) (d : Device) (data : Memory), s.Inv → AnsweredByMemory s address .word d data →
    ((s.busWrite address .word v).busRead address .word false).1 = v ∧
    (∀ (w : Width) (n j : Nat), (w, n) ∈ [(Width.byte, 1), (.half, 2), (.word, 4)] → j + n ≤ 4 →
      (∀ e ∈ s.devices, e.accepts (address.toNat + j) w = e.accepts address.toNat .word) →
      ((s.busWrite address .word v).busRead (address + BitVec.ofNat 32 j) w false).1 =
        (v.extractLsb' (8 * j) (8 * n)).setWidth 32) ∧
    (s.pc = address → (s.busWrite address .word v).fetch.1 = v)

/-- `Bus.irq()` (20_memory.md rule R47): true iff some device's line is true; false with no device; and it is what a step
samples (40_execution_engine.md rule R101), in the field `irqSample` of the model's own (log entry 12). -/
def Obligations.TheLineIsTheOrOfTheDevices : Prop :=
  (∀ s : State, s.busIrq = true ↔ ∃ d ∈ s.devices, d.irq = true) ∧
  (∀ s : State, s.devices = [] → s.busIrq = false) ∧
  ∀ s : State, ∃ t, step s = .next t ∧ t.irqSample = s.busIrq

/-- `Bus.reset()` (20_memory.md rule R48): every device is reset, in list order; the device list and `bus.error` do not
change, nor does the core; every byte of a flat memory is kept. -/
def Obligations.BusResetResetsEveryDevice : Prop :=
  ∀ s : State, hostStep .busReset s = .next { s with devices := s.devices.map Device.reset } ∧
    s.busReset.devices.map deviceShape = s.devices.map deviceShape ∧
    ∀ address, s.busReset.bytesAt address = s.bytesAt address

/-! ### Reset and the host (70_reset_and_hazards.md) -/

/-- The state after reset (10_state.md section 8): all registers, `pc` and `mepc` 0, `irqState` and `bus.error` false, every
byte of memory 0. `State.reset` is the state at power-on: that the registers, `pc` and `mepc` are 0 there is the spec's
decision D20 (log entry 5), `bus.error` its decision D9 (log entry 4), and the platform its reference platform REF (log
entry 1). -/
def Obligations.ResetStateIsAllZero : Prop :=
  State.reset.registerCount = 32 ∧ (∀ j, State.reset.getX j = 0#32) ∧ State.reset.pc = 0#32 ∧
  State.reset.mepc = 0#32 ∧ State.reset.irqState = false ∧ State.reset.busError = false ∧
  ∀ address, State.reset.bytesAt address = [if address < 0x10000 then some 0#8 else none]

/-- `Core.reset()` (70_reset_and_hazards.md rule R260): every register, `pc` and `mepc` to 0; `irqState` cleared if and only
if the parameter RESET_CLEARS_IRQSTATE is true (log entry 2); the bus, the devices, memory and `bus.error` untouched, the
last by the spec's decision D9 (log entry 4). -/
def Obligations.CoreResetClearsTheCoreOnly : Prop :=
  ∀ s : State, ∃ t, hostStep .coreReset s = .next t ∧ t.registerCount = s.registerCount ∧ (∀ j, t.getX j = 0#32) ∧
    t.pc = 0#32 ∧ t.mepc = 0#32 ∧
    t.irqState = (if Config.resetClearsIrqState then false else s.irqState) ∧
    t.devices = s.devices ∧ t.busError = s.busError ∧ ∀ address, t.bytesAt address = s.bytesAt address

/-- `addDevice` appends in registration order without checking for overlap; a device of size 0 or past 2^32 is refused, and
so is a host access of a size other than 1, 2, 4 (20_memory.md rules R31, R36, R46). The refusals are the spec's decisions
D12, D13 (log entry 11). -/
def Obligations.HostOperationsAreCheckedForRangeAndSize : Prop :=
  (∀ (s : State) (base : Word) (size id : Nat) (st : PeriphState), 1 ≤ size → base.toNat + size ≤ 2 ^ 32 →
    hostStep (.addMemory base size) s = .next { s with devices := s.devices ++ [⟨base.toNat, size, .memory []⟩] } ∧
    hostStep (.addPeripheral base size id st) s =
      .next { s with devices := s.devices ++ [⟨base.toNat, size, .peripheral id st⟩] }) ∧
  (∀ (s : State) (base : Word) (size id : Nat) (st : PeriphState), size = 0 ∨ 2 ^ 32 < base.toNat + size →
    hostStep (.addMemory base size) s = .refused (.deviceRange base.toNat size) ∧
    hostStep (.addPeripheral base size id st) s = .refused (.deviceRange base.toNat size)) ∧
  (∀ (s : State) (address v : Word) (bytes : Nat) (signed : Bool), bytes ∉ [1, 2, 4] →
    hostRead s address bytes signed = .refused (.accessSize bytes) ∧
    hostStep (.busRead address bytes signed) s = .refused (.accessSize bytes) ∧
    hostStep (.busWrite address bytes v) s = .refused (.accessSize bytes)) ∧
  ∀ (s : State) (address v : Word) (w : Width) (n : Nat) (signed : Bool),
    (w, n) ∈ [(Width.byte, 1), (.half, 2), (.word, 4)] →
    hostRead s address n signed = .next (s.busRead address w signed) ∧
    hostStep (.busRead address n signed) s = .next (s.busRead address w signed).2 ∧
    hostStep (.busWrite address n v) s = .next (s.busWrite address w v)

/-- The word placed by `withFetchWord` is the word the next step runs, and nothing of the core changes (log entry 13, a
choice of the model). -/
def Obligations.PlacedWordIsTheOneFetched : Prop :=
  ∀ (s : State) (w : Nat), s.Inv → w < 2 ^ 32 →
    (s.withFetchWord 32 w).fetch.1 = BitVec.ofNat 32 w ∧ (s.withFetchWord 32 w).regs = s.regs ∧
    (s.withFetchWord 32 w).pc = s.pc ∧ (s.withFetchWord 32 w).mepc = s.mepc ∧
    (s.withFetchWord 32 w).irqState = s.irqState

/-! ### Invariants -/

/-- The state after reset meets the invariant. Its platform, its zeros and the canonical form of memory are the model's choices
(log entries 1, 5 and 15). -/
def Obligations.ResetMeetsTheInvariant : Prop := State.reset.Inv

/-- Every step keeps the invariant, from every state that meets it: `pc` a multiple of 4 (10_state.md rule R15), every
device of an admitted range, which is the spec's decision D12 (log entry 11), and every flat memory in canonical form and
within its size, which is the model's own representation (log entry 15). -/
def Obligations.EveryStepKeepsTheInvariant : Prop :=
  ∀ s t : State, s.Inv → step s = .next t → t.Inv

/-- Every operation of the host, and every sequence of host operations and environment changes between two steps, keeps the
invariant (70_reset_and_hazards.md rules R267, R268). The admitted ranges are the spec's decision D12 (log entry 11), the
canonical form the model's representation (log entry 15), what may happen between steps log entry 16. -/
def Obligations.HostAndEnvironmentKeepTheInvariant : Prop :=
  (∀ (op : HostOp) (s t : State), s.Inv → hostStep op s = .next t → t.Inv) ∧
  ∀ s t : State, s.Inv → Between s t → t.Inv

/-- Every state a run reaches, with the host and the environment acting between its steps, meets the invariant if its first
state does (40_execution_engine.md section 3; 70_reset_and_hazards.md section 3; log entries 11, 15 and 16). -/
def Obligations.EveryRunKeepsTheInvariant : Prop :=
  ∀ (n : Nat) (s t : State), s.Inv → Reaches n s t → t.Inv

/-- No step adds, removes, moves or resizes a device, changes a peripheral's behaviour, or changes the number of registers:
the map is the host's (10_state.md section 1; 20_memory.md rules R36, R46). -/
def Obligations.StepsKeepTheDeviceMap : Prop :=
  ∀ s t : State, step s = .next t →
    t.devices.map deviceShape = s.devices.map deviceShape ∧ t.registerCount = s.registerCount
end

