-- ==== Sys2Proof/Laws/Memory.lean ====
section
/-! SUPPORT. The laws of the flat memory: read after write, everything else untouched, canonical form kept. -/

namespace Sys2Proof.Machine

theorem Memory.byte_nil (a : Nat) : Memory.byte [] a = 0#8 := rfl

theorem Memory.byte_cons (k : Nat) (c : Byte) (rest : Memory) (a : Nat) :
    Memory.byte ((k, c) :: rest) a = if k = a then c else rest.byte a := rfl

/-- Below every offset a canonical list names, nothing is listed. -/
theorem Memory.byte_below {size lo : Nat} {m : Memory} (h : Memory.wfFrom size lo m) {a : Nat} (ha : a < lo) :
    m.byte a = 0#8 := by
  induction m generalizing lo with
  | nil => rfl
  | cons entry rest ih =>
    obtain ⟨k, c⟩ := entry
    simp only [Memory.wfFrom, Bool.and_eq_true, decide_eq_true_eq] at h
    rw [Memory.byte_cons, if_neg (by omega)]
    exact ih h.2 (by omega)

/-- A larger lower bound is the stronger condition. -/
theorem Memory.wfFrom_mono {size lo lo' : Nat} {m : Memory} (h : Memory.wfFrom size lo' m) (hle : lo ≤ lo') :
    Memory.wfFrom size lo m := by
  cases m with
  | nil => rfl
  | cons entry rest =>
    simp only [Memory.wfFrom, Bool.and_eq_true, decide_eq_true_eq] at h ⊢
    exact ⟨⟨⟨by omega, h.1.1.2⟩, h.1.2⟩, h.2⟩

/-- A write leaves every other byte alone, in any list. -/
theorem Memory.byte_set_other (m : Memory) {a a' : Nat} (b : Byte) (h : a' ≠ a) : (m.set a b).byte a' = m.byte a' := by
  induction m with
  | nil =>
    rw [Memory.set]
    split
    · rfl
    · rw [Memory.byte_cons, if_neg (Ne.symm h)]
  | cons entry rest ih =>
    obtain ⟨k, c⟩ := entry
    rw [Memory.set]
    split
    · split
      · rfl
      · rw [Memory.byte_cons, if_neg (Ne.symm h)]
    · split
      · rename_i hk
        split <;> simp [Memory.byte_cons, ← hk, Ne.symm h]
      · simp [Memory.byte_cons, ih]

/-- The byte written is the byte read, in a canonical list. -/
theorem Memory.byte_set_same {size lo : Nat} {m : Memory} (h : Memory.wfFrom size lo m) (a : Nat) (b : Byte) :
    (m.set a b).byte a = b := by
  induction m generalizing lo with
  | nil =>
    rw [Memory.set]
    split
    · rename_i hb; rw [hb]; rfl
    · simp [Memory.byte_cons]
  | cons entry rest ih =>
    obtain ⟨k, c⟩ := entry
    have hw := h
    simp only [Memory.wfFrom, Bool.and_eq_true, decide_eq_true_eq] at hw
    rw [Memory.set]
    split
    · split
      · rename_i hb
        rw [Memory.byte_cons, if_neg (by omega), Memory.byte_below hw.2 (by omega), hb]
        rfl
      · simp [Memory.byte_cons]
    · split
      · split
        · rename_i hk hb
          rw [Memory.byte_below hw.2 (by omega), hb]
          rfl
        · simp [Memory.byte_cons]
      · rename_i hk
        rw [Memory.byte_cons, if_neg (Ne.symm hk)]
        exact ih hw.2

/-- A write within the device keeps the canonical form. -/
theorem Memory.wfFrom_set {size lo : Nat} {m : Memory} (h : Memory.wfFrom size lo m) {a : Nat} (b : Byte)
    (hlo : lo ≤ a) (ha : a < size) : Memory.wfFrom size lo (m.set a b) := by
  induction m generalizing lo with
  | nil =>
    rw [Memory.set]
    split
    · rfl
    · rename_i hb
      simp [Memory.wfFrom, hlo, ha, hb]
  | cons entry rest ih =>
    obtain ⟨k, c⟩ := entry
    have hw := h
    simp only [Memory.wfFrom, Bool.and_eq_true, decide_eq_true_eq] at hw
    rw [Memory.set]
    split
    · split
      · exact h
      · rename_i hk hb
        simp only [Memory.wfFrom, Bool.and_eq_true, decide_eq_true_eq]
        exact ⟨⟨⟨hlo, ha⟩, by simpa using hb⟩, ⟨⟨hk, hw.1.1.2⟩, hw.1.2⟩, hw.2⟩
    · split
      · rename_i hk
        subst hk
        split
        · exact Memory.wfFrom_mono hw.2 (by omega)
        · rename_i hb
          simp only [Memory.wfFrom, Bool.and_eq_true, decide_eq_true_eq]
          exact ⟨⟨⟨hlo, ha⟩, by simpa using hb⟩, hw.2⟩
      · simp only [Memory.wfFrom, Bool.and_eq_true, decide_eq_true_eq]
        exact ⟨hw.1, ih hw.2 (by omega)⟩

theorem Memory.store_zero (m : Memory) (offset : Nat) (v : Word) : m.store offset v 0 = m := rfl

theorem Memory.store_succ (m : Memory) (offset : Nat) (v : Word) (n : Nat) :
    m.store offset v (n + 1) = (m.store offset v n).set (offset + n) (v.extractLsb' (8 * n) 8) := rfl

/-- A store leaves every byte outside its range alone, in any list. -/
theorem Memory.byte_store_outside (m : Memory) (offset : Nat) (v : Word) (n : Nat) {a : Nat}
    (h : a < offset ∨ offset + n ≤ a) : (m.store offset v n).byte a = m.byte a := by
  induction n with
  | zero => rfl
  | succ n ih => rw [Memory.store_succ, Memory.byte_set_other _ _ (by omega), ih (by omega)]

/-- A store within the device keeps the canonical form. -/
theorem Memory.wfFrom_store {size lo : Nat} {m : Memory} (h : Memory.wfFrom size lo m) {offset : Nat} (v : Word) {n : Nat}
    (hlo : lo ≤ offset) (hn : offset + n ≤ size) : Memory.wfFrom size lo (m.store offset v n) := by
  induction n with
  | zero => exact h
  | succ n ih => exact Memory.wfFrom_set (ih (by omega)) _ (by omega) (by omega)

/-- A store within the device leaves byte `i` of the value at place `i`. -/
theorem Memory.byte_store_inside {size lo : Nat} {m : Memory} (h : Memory.wfFrom size lo m) {offset : Nat} (v : Word)
    {n i : Nat} (hlo : lo ≤ offset) (hn : offset + n ≤ size) (hi : i < n) :
    (m.store offset v n).byte (offset + i) = v.extractLsb' (8 * i) 8 := by
  induction n with
  | zero => omega
  | succ n ih =>
    rw [Memory.store_succ]
    by_cases hin : i = n
    · subst hin
      exact Memory.byte_set_same (Memory.wfFrom_store h v hlo (by omega)) _ _
    · rw [Memory.byte_set_other _ _ (by omega)]
      exact ih (by omega) (by omega)

/-- Every write of the device keeps its canonical form. -/
theorem Memory.wf_localWrite {size : Nat} {m : Memory} (h : m.wf size) {offset : Nat} (w : Width) (v : Word)
    (hn : offset + w.bytes ≤ size) : (m.localWrite offset w v).wf size :=
  Memory.wfFrom_store h v (Nat.zero_le _) hn

/-- A write leaves every byte outside its range alone. -/
theorem Memory.byte_localWrite_outside (m : Memory) (offset : Nat) (w : Width) (v : Word) {a : Nat}
    (h : a < offset ∨ offset + w.bytes ≤ a) : (m.localWrite offset w v).byte a = m.byte a :=
  Memory.byte_store_outside m offset v w.bytes h

/-- The bytes of a write are read back. -/
theorem Memory.byte_localWrite_inside {size : Nat} {m : Memory} (h : m.wf size) {offset : Nat} (w : Width) (v : Word)
    (hn : offset + w.bytes ≤ size) {i : Nat} (hi : i < w.bytes) :
    (m.localWrite offset w v).byte (offset + i) = v.extractLsb' (8 * i) 8 :=
  Memory.byte_store_inside h v (Nat.zero_le _) hn hi

/-- The four bytes of a word, put together again. -/
theorem word_of_extracted_bytes (v : Word) :
    v.extractLsb' 24 8 ++ v.extractLsb' 16 8 ++ v.extractLsb' 8 8 ++ v.extractLsb' 0 8 = v := by
  refine BitVec.eq_of_getLsbD_eq fun i hi => ?_
  simp only [BitVec.getLsbD_append, BitVec.getLsbD_extractLsb']
  interval_cases i <;> simp

/-- A word written is the word read at the same place. -/
theorem Memory.localRead_localWrite_word {size : Nat} {m : Memory} (h : m.wf size) {offset : Nat} (v : Word)
    (hn : offset + 4 ≤ size) : (m.localWrite offset .word v).localRead offset .word = v := by
  have hb := fun {i : Nat} (hi : i < 4) => Memory.byte_localWrite_inside h .word v hn hi
  have h0 := hb (i := 0) (by omega)
  have h1 := hb (i := 1) (by omega)
  have h2 := hb (i := 2) (by omega)
  have h3 := hb (i := 3) (by omega)
  rw [Nat.add_zero] at h0
  rw [Memory.localRead, h0, h1, h2, h3]
  exact word_of_extracted_bytes v

end Sys2Proof.Machine
end

