-- ==== Sys2Proof/Laws/State.lean ====
section
/-! SUPPORT. One lemma per field and update: what each shared operation leaves as it was, and the register file's read
after write (10_state.md rules R12, R13). -/

namespace Sys2Proof.Machine

variable (s : State)

/-! `setX` -/

@[simp] theorem State.setX_pc (i : Nat) (v : Word) : (s.setX i v).pc = s.pc :=
  by unfold State.setX; split <;> [rfl; (split <;> rfl)]
@[simp] theorem State.setX_mepc (i : Nat) (v : Word) : (s.setX i v).mepc = s.mepc :=
  by unfold State.setX; split <;> [rfl; (split <;> rfl)]
@[simp] theorem State.setX_irqState (i : Nat) (v : Word) : (s.setX i v).irqState = s.irqState :=
  by unfold State.setX; split <;> [rfl; (split <;> rfl)]
@[simp] theorem State.setX_devices (i : Nat) (v : Word) : (s.setX i v).devices = s.devices :=
  by unfold State.setX; split <;> [rfl; (split <;> rfl)]
@[simp] theorem State.setX_busError (i : Nat) (v : Word) : (s.setX i v).busError = s.busError :=
  by unfold State.setX; split <;> [rfl; (split <;> rfl)]
@[simp] theorem State.setX_irqSample (i : Nat) (v : Word) : (s.setX i v).irqSample = s.irqSample :=
  by unfold State.setX; split <;> [rfl; (split <;> rfl)]
@[simp] theorem State.setX_fetchError (i : Nat) (v : Word) : (s.setX i v).fetchError = s.fetchError :=
  by unfold State.setX; split <;> [rfl; (split <;> rfl)]
@[simp] theorem State.setX_trace (i : Nat) (v : Word) : (s.setX i v).trace = s.trace :=
  by unfold State.setX; split <;> [rfl; (split <;> rfl)]

/-! `writeReg` -/

@[simp] theorem State.writeReg_pc (f : RegIdx) (v : Word) : (s.writeReg f v).pc = s.pc := by simp [State.writeReg]
@[simp] theorem State.writeReg_mepc (f : RegIdx) (v : Word) : (s.writeReg f v).mepc = s.mepc :=
  by simp [State.writeReg]
@[simp] theorem State.writeReg_irqState (f : RegIdx) (v : Word) : (s.writeReg f v).irqState = s.irqState :=
  by simp [State.writeReg]
@[simp] theorem State.writeReg_devices (f : RegIdx) (v : Word) : (s.writeReg f v).devices = s.devices :=
  by simp [State.writeReg]
@[simp] theorem State.writeReg_busError (f : RegIdx) (v : Word) : (s.writeReg f v).busError = s.busError :=
  by simp [State.writeReg]
@[simp] theorem State.writeReg_irqSample (f : RegIdx) (v : Word) : (s.writeReg f v).irqSample = s.irqSample :=
  by simp [State.writeReg]
@[simp] theorem State.writeReg_fetchError (f : RegIdx) (v : Word) : (s.writeReg f v).fetchError = s.fetchError :=
  by simp [State.writeReg]
@[simp] theorem State.writeReg_trace (f : RegIdx) (v : Word) : (s.writeReg f v).trace = s.trace :=
  by simp [State.writeReg]

/-! `setPc` -/

@[simp] theorem State.setPc_regs (v : Word) : (s.setPc v).regs = s.regs := rfl
@[simp] theorem State.setPc_mepc (v : Word) : (s.setPc v).mepc = s.mepc := rfl
@[simp] theorem State.setPc_irqState (v : Word) : (s.setPc v).irqState = s.irqState := rfl
@[simp] theorem State.setPc_devices (v : Word) : (s.setPc v).devices = s.devices := rfl
@[simp] theorem State.setPc_busError (v : Word) : (s.setPc v).busError = s.busError := rfl
@[simp] theorem State.setPc_irqSample (v : Word) : (s.setPc v).irqSample = s.irqSample := rfl
@[simp] theorem State.setPc_fetchError (v : Word) : (s.setPc v).fetchError = s.fetchError := rfl
@[simp] theorem State.setPc_trace (v : Word) : (s.setPc v).trace = s.trace := rfl

/-! `enterInterrupt` -/

@[simp] theorem State.enterInterrupt_regs (a : Word) : (s.enterInterrupt a).regs = s.regs := rfl
@[simp] theorem State.enterInterrupt_devices (a : Word) : (s.enterInterrupt a).devices = s.devices := rfl
@[simp] theorem State.enterInterrupt_busError (a : Word) : (s.enterInterrupt a).busError = s.busError := rfl
@[simp] theorem State.enterInterrupt_irqSample (a : Word) : (s.enterInterrupt a).irqSample = s.irqSample := rfl
@[simp] theorem State.enterInterrupt_fetchError (a : Word) : (s.enterInterrupt a).fetchError = s.fetchError := rfl
@[simp] theorem State.enterInterrupt_trace (a : Word) : (s.enterInterrupt a).trace = s.trace := rfl

/-! `returnFromInterrupt` -/

@[simp] theorem State.returnFromInterrupt_regs : (s.returnFromInterrupt).regs = s.regs := rfl
@[simp] theorem State.returnFromInterrupt_mepc : (s.returnFromInterrupt).mepc = s.mepc := rfl
@[simp] theorem State.returnFromInterrupt_devices : (s.returnFromInterrupt).devices = s.devices := rfl
@[simp] theorem State.returnFromInterrupt_busError : (s.returnFromInterrupt).busError = s.busError := rfl
@[simp] theorem State.returnFromInterrupt_irqSample : (s.returnFromInterrupt).irqSample = s.irqSample := rfl
@[simp] theorem State.returnFromInterrupt_fetchError : (s.returnFromInterrupt).fetchError = s.fetchError := rfl
@[simp] theorem State.returnFromInterrupt_trace : (s.returnFromInterrupt).trace = s.trace := rfl

/-! `emit` -/

@[simp] theorem State.emit_regs (t : Trace) : (s.emit t).regs = s.regs := rfl
@[simp] theorem State.emit_pc (t : Trace) : (s.emit t).pc = s.pc := rfl
@[simp] theorem State.emit_mepc (t : Trace) : (s.emit t).mepc = s.mepc := rfl
@[simp] theorem State.emit_irqState (t : Trace) : (s.emit t).irqState = s.irqState := rfl
@[simp] theorem State.emit_devices (t : Trace) : (s.emit t).devices = s.devices := rfl
@[simp] theorem State.emit_busError (t : Trace) : (s.emit t).busError = s.busError := rfl
@[simp] theorem State.emit_irqSample (t : Trace) : (s.emit t).irqSample = s.irqSample := rfl
@[simp] theorem State.emit_fetchError (t : Trace) : (s.emit t).fetchError = s.fetchError := rfl

/-! `advance` -/

@[simp] theorem State.advance_regs (k : Bool) (r : Word) : (s.advance k r).regs = s.regs :=
  by unfold State.advance; split <;> rfl
@[simp] theorem State.advance_devices (k : Bool) (r : Word) : (s.advance k r).devices = s.devices :=
  by unfold State.advance; split <;> rfl
@[simp] theorem State.advance_busError (k : Bool) (r : Word) : (s.advance k r).busError = s.busError :=
  by unfold State.advance; split <;> rfl
@[simp] theorem State.advance_irqSample (k : Bool) (r : Word) : (s.advance k r).irqSample = s.irqSample :=
  by unfold State.advance; split <;> rfl
@[simp] theorem State.advance_fetchError (k : Bool) (r : Word) : (s.advance k r).fetchError = s.fetchError :=
  by unfold State.advance; split <;> rfl
@[simp] theorem State.advance_trace (k : Bool) (r : Word) : (s.advance k r).trace = s.trace :=
  by unfold State.advance; split <;> rfl

/-! `advanceMret` -/

@[simp] theorem State.advanceMret_regs : (s.advanceMret).regs = s.regs := by unfold State.advanceMret; split <;> rfl
@[simp] theorem State.advanceMret_devices : (s.advanceMret).devices = s.devices :=
  by unfold State.advanceMret; split <;> rfl
@[simp] theorem State.advanceMret_busError : (s.advanceMret).busError = s.busError :=
  by unfold State.advanceMret; split <;> rfl
@[simp] theorem State.advanceMret_irqSample : (s.advanceMret).irqSample = s.irqSample :=
  by unfold State.advanceMret; split <;> rfl
@[simp] theorem State.advanceMret_fetchError : (s.advanceMret).fetchError = s.fetchError :=
  by unfold State.advanceMret; split <;> rfl
@[simp] theorem State.advanceMret_trace : (s.advanceMret).trace = s.trace :=
  by unfold State.advanceMret; split <;> rfl

/-! `busRead` -/

@[simp] theorem State.busRead_regs (a : Word) (w : Width) (sg : Bool) : ((s.busRead a w sg).2).regs = s.regs :=
  by unfold State.busRead; split <;> rfl
@[simp] theorem State.busRead_pc (a : Word) (w : Width) (sg : Bool) : ((s.busRead a w sg).2).pc = s.pc :=
  by unfold State.busRead; split <;> rfl
@[simp] theorem State.busRead_mepc (a : Word) (w : Width) (sg : Bool) : ((s.busRead a w sg).2).mepc = s.mepc :=
  by unfold State.busRead; split <;> rfl
@[simp] theorem State.busRead_irqState (a : Word) (w : Width) (sg : Bool) : ((s.busRead a w sg).2).irqState = s.irqState :=
  by unfold State.busRead; split <;> rfl
@[simp] theorem State.busRead_irqSample (a : Word) (w : Width) (sg : Bool) : ((s.busRead a w sg).2).irqSample = s.irqSample :=
  by unfold State.busRead; split <;> rfl
@[simp] theorem State.busRead_fetchError (a : Word) (w : Width) (sg : Bool) : ((s.busRead a w sg).2).fetchError = s.fetchError :=
  by unfold State.busRead; split <;> rfl
@[simp] theorem State.busRead_trace (a : Word) (w : Width) (sg : Bool) : ((s.busRead a w sg).2).trace = s.trace :=
  by unfold State.busRead; split <;> rfl

/-! `busWrite` -/

@[simp] theorem State.busWrite_regs (a : Word) (w : Width) (v : Word) : (s.busWrite a w v).regs = s.regs :=
  by unfold State.busWrite; split <;> rfl
@[simp] theorem State.busWrite_pc (a : Word) (w : Width) (v : Word) : (s.busWrite a w v).pc = s.pc :=
  by unfold State.busWrite; split <;> rfl
@[simp] theorem State.busWrite_mepc (a : Word) (w : Width) (v : Word) : (s.busWrite a w v).mepc = s.mepc :=
  by unfold State.busWrite; split <;> rfl
@[simp] theorem State.busWrite_irqState (a : Word) (w : Width) (v : Word) : (s.busWrite a w v).irqState = s.irqState :=
  by unfold State.busWrite; split <;> rfl
@[simp] theorem State.busWrite_irqSample (a : Word) (w : Width) (v : Word) : (s.busWrite a w v).irqSample = s.irqSample :=
  by unfold State.busWrite; split <;> rfl
@[simp] theorem State.busWrite_fetchError (a : Word) (w : Width) (v : Word) : (s.busWrite a w v).fetchError = s.fetchError :=
  by unfold State.busWrite; split <;> rfl
@[simp] theorem State.busWrite_trace (a : Word) (w : Width) (v : Word) : (s.busWrite a w v).trace = s.trace :=
  by unfold State.busWrite; split <;> rfl

/-! `coreReset` -/

@[simp] theorem State.coreReset_devices : (s.coreReset).devices = s.devices := rfl
@[simp] theorem State.coreReset_busError : (s.coreReset).busError = s.busError := rfl
@[simp] theorem State.coreReset_irqSample : (s.coreReset).irqSample = s.irqSample := rfl
@[simp] theorem State.coreReset_fetchError : (s.coreReset).fetchError = s.fetchError := rfl
@[simp] theorem State.coreReset_trace : (s.coreReset).trace = s.trace := rfl

/-! `busReset` -/

@[simp] theorem State.busReset_regs : (s.busReset).regs = s.regs := rfl
@[simp] theorem State.busReset_pc : (s.busReset).pc = s.pc := rfl
@[simp] theorem State.busReset_mepc : (s.busReset).mepc = s.mepc := rfl
@[simp] theorem State.busReset_irqState : (s.busReset).irqState = s.irqState := rfl
@[simp] theorem State.busReset_busError : (s.busReset).busError = s.busError := rfl
@[simp] theorem State.busReset_irqSample : (s.busReset).irqSample = s.irqSample := rfl
@[simp] theorem State.busReset_fetchError : (s.busReset).fetchError = s.fetchError := rfl
@[simp] theorem State.busReset_trace : (s.busReset).trace = s.trace := rfl

/-! `addDevice` -/

@[simp] theorem State.addDevice_regs (d : Device) : (s.addDevice d).regs = s.regs := rfl
@[simp] theorem State.addDevice_pc (d : Device) : (s.addDevice d).pc = s.pc := rfl
@[simp] theorem State.addDevice_mepc (d : Device) : (s.addDevice d).mepc = s.mepc := rfl
@[simp] theorem State.addDevice_irqState (d : Device) : (s.addDevice d).irqState = s.irqState := rfl
@[simp] theorem State.addDevice_busError (d : Device) : (s.addDevice d).busError = s.busError := rfl
@[simp] theorem State.addDevice_irqSample (d : Device) : (s.addDevice d).irqSample = s.irqSample := rfl
@[simp] theorem State.addDevice_fetchError (d : Device) : (s.addDevice d).fetchError = s.fetchError := rfl
@[simp] theorem State.addDevice_trace (d : Device) : (s.addDevice d).trace = s.trace := rfl

/-! New values. -/

@[simp] theorem State.setPc_pc (v : Word) : (s.setPc v).pc = alignPc v := rfl
@[simp] theorem State.enterInterrupt_pc (a : Word) : (s.enterInterrupt a).pc = alignPc Config.trapVector := rfl
@[simp] theorem State.enterInterrupt_mepc (a : Word) : (s.enterInterrupt a).mepc = a := rfl
@[simp] theorem State.enterInterrupt_irqState (a : Word) : (s.enterInterrupt a).irqState = true := rfl
@[simp] theorem State.returnFromInterrupt_pc : s.returnFromInterrupt.pc = alignPc s.mepc := rfl
@[simp] theorem State.returnFromInterrupt_irqState : s.returnFromInterrupt.irqState = false := rfl
@[simp] theorem State.emit_trace (t : Trace) : (s.emit t).trace = some t := rfl
@[simp] theorem State.busReset_devices : s.busReset.devices = s.devices.map Device.reset := rfl
@[simp] theorem State.addDevice_devices (d : Device) : (s.addDevice d).devices = s.devices ++ [d] := rfl

/-- The trap vector is a multiple of 4 already. -/
@[simp] theorem alignPc_trapVector : alignPc Config.trapVector = 4#32 := by decide

/-- Clearing the low two bits twice is clearing them once. -/
@[simp] theorem alignPc_alignPc (v : Word) : alignPc (alignPc v) = alignPc v := by
  simp [alignPc, BitVec.and_assoc]

/-! What is computed from fields that an operation leaves alone. -/

@[simp] theorem State.writeReg_incPc (f : RegIdx) (v : Word) : (s.writeReg f v).incPc = s.incPc := by
  simp [State.incPc]

@[simp] theorem State.busRead_incPc (a : Word) (w : Width) (sg : Bool) : (s.busRead a w sg).2.incPc = s.incPc := by
  simp [State.incPc]

@[simp] theorem State.busWrite_incPc (a : Word) (w : Width) (v : Word) : (s.busWrite a w v).incPc = s.incPc := by
  simp [State.incPc]

@[simp] theorem State.writeReg_enteringIrq (f : RegIdx) (v : Word) :
    (s.writeReg f v).enteringIrq = s.enteringIrq := by
  simp [State.enteringIrq]

@[simp] theorem State.busRead_enteringIrq (a : Word) (w : Width) (sg : Bool) :
    (s.busRead a w sg).2.enteringIrq = s.enteringIrq := by
  simp [State.enteringIrq]

@[simp] theorem State.busWrite_enteringIrq (a : Word) (w : Width) (v : Word) :
    (s.busWrite a w v).enteringIrq = s.enteringIrq := by
  simp [State.enteringIrq]

/-! The register file. -/

@[simp] theorem State.getX_zero : s.getX 0 = 0#32 := rfl

/-- The register file is read through `regs` alone. -/
theorem State.getX_congr {s t : State} (h : t.regs = s.regs) (i : Nat) : t.getX i = s.getX i := by
  simp [State.getX, State.registerCount, h]

/-- `N` depends on `regs` alone. -/
theorem State.registerCount_congr {s t : State} (h : t.regs = s.regs) : t.registerCount = s.registerCount := by
  simp [State.registerCount, h]

@[simp] theorem State.setX_registerCount (i : Nat) (v : Word) : (s.setX i v).registerCount = s.registerCount := by
  unfold State.setX
  split
  · rfl
  · split
    · rfl
    · simp [State.registerCount]

@[simp] theorem State.writeReg_registerCount (f : RegIdx) (v : Word) :
    (s.writeReg f v).registerCount = s.registerCount := State.setX_registerCount s _ v

/-- Read after write: the word written at its index, unless the write is discarded; every other register as before
(10_state.md rules R12, R13). -/
theorem State.getX_setX (i j : Nat) (v : Word) :
    (s.setX i v).getX j = if j = i ∧ j ≠ 0 ∧ j < s.registerCount then v else s.getX j := by
  by_cases hi : i = 0
  · subst hi
    rw [State.setX, if_pos rfl, if_neg (by omega)]
  · by_cases hn : s.registerCount ≤ i
    · rw [State.setX, if_neg hi, if_pos hn, if_neg (by omega)]
    · rw [State.setX, if_neg hi, if_neg hn]
      simp only [State.getX, State.registerCount, List.length_set, List.getD_eq_getElem?_getD, List.getElem?_set] at hn ⊢
      by_cases hj : j = i
      · subst hj
        rw [if_neg hi, if_neg hn, if_pos rfl, if_pos (by omega), if_pos ⟨rfl, hi, by omega⟩]
        rfl
      · rw [if_neg (by tauto : ¬(j = i ∧ _))]
        by_cases hj0 : j = 0
        · rw [if_pos hj0, if_pos hj0]
        · rw [if_neg (by omega : ¬ i - 1 = j - 1)]

/-- `State.getX_setX` for the register a field names. -/
theorem State.getX_writeReg (f : RegIdx) (j : Nat) (v : Word) :
    (s.writeReg f v).getX j = if j = f.toNat ∧ j ≠ 0 ∧ j < s.registerCount then v else s.getX j :=
  State.getX_setX s f.toNat j v

end Sys2Proof.Machine
end

