-- ==== Sys2Proof/Laws/Bus.lean ====
section
/-! SUPPORT. The laws of the device contract and of the bus: what an access can do, that the bytes it does not store to
stay, and that devices stay as the model admits them. -/

namespace Sys2Proof.Machine

/-! ### One device -/

/-- An access a device of an admitted range accepts lies within its bytes (20_memory.md rule R37). -/
theorem Device.accepts_iff {d : Device} (h : Device.rangeOk d.base d.size = true) (address : Nat) (w : Width) :
    d.accepts address w = true ↔ d.base ≤ address ∧ address + w.bytes ≤ d.base + d.size := by
  have hw : 1 ≤ w.bytes := by cases w <;> decide
  simp only [Device.rangeOk, Bool.and_eq_true, decide_eq_true_eq] at h
  rw [Device.accepts, Bool.and_eq_true, decide_eq_true_eq, decide_eq_true_eq, Device.last]
  constructor <;> rintro ⟨h1, h2⟩ <;> exact ⟨h1, by omega⟩

@[simp] theorem Device.read_base (d : Device) (a : Nat) (w : Width) (sg : Bool) : (d.read a w sg).2.base = d.base := rfl
@[simp] theorem Device.read_size (d : Device) (a : Nat) (w : Width) (sg : Bool) : (d.read a w sg).2.size = d.size := rfl
@[simp] theorem Device.write_base (d : Device) (a : Nat) (w : Width) (v : Word) : (d.write a w v).base = d.base := rfl
@[simp] theorem Device.write_size (d : Device) (a : Nat) (w : Width) (v : Word) : (d.write a w v).size = d.size := rfl
@[simp] theorem Device.reset_base (d : Device) : d.reset.base = d.base := rfl
@[simp] theorem Device.reset_size (d : Device) : d.reset.size = d.size := rfl

/-- The byte a flat memory holds at an address. -/
theorem Device.byteAt_memory (base size : Nat) (data : Memory) (x : Nat) :
    Device.byteAt ⟨base, size, .memory data⟩ x =
      if base ≤ x ∧ x < base + size then some (data.byte (x - base)) else none := rfl

/-- A write to a flat memory. -/
theorem Device.write_memory (base size : Nat) (data : Memory) (a : Nat) (w : Width) (v : Word) :
    Device.write ⟨base, size, .memory data⟩ a w v = ⟨base, size, .memory (data.localWrite (a - base) w v)⟩ := rfl

/-- A read of a flat memory changes nothing (20_memory.md rule R43). -/
theorem Device.read_memory {d : Device} {data : Memory} (h : d.body = .memory data) (a : Nat) (w : Width) (sg : Bool) :
    d.read a w sg = (extendRaw w sg (data.localRead (a - d.base) w), d) := by
  obtain ⟨base, size, body⟩ := d
  subst h
  rfl

/-- The first component of a device's read is the extended raw value (20_memory.md rule R38). -/
theorem Device.read_fst (d : Device) (a : Nat) (w : Width) (sg : Bool) :
    (d.read a w sg).1 = extendRaw w sg (d.body.localRead (a - d.base) w).1 := rfl

/-- A read leaves every byte of every flat memory as it was. -/
@[simp] theorem Device.byteAt_read (d : Device) (a : Nat) (w : Width) (sg : Bool) (x : Nat) :
    (d.read a w sg).2.byteAt x = d.byteAt x := by
  obtain ⟨base, size, body⟩ := d
  cases body <;> rfl

/-- A write leaves every byte outside its range as it was. -/
theorem Device.byteAt_write_outside (d : Device) (a : Nat) (w : Width) (v : Word) {x : Nat} (hx : x < a ∨ a + w.bytes ≤ x)
    (ha : d.base ≤ a) : (d.write a w v).byteAt x = d.byteAt x := by
  obtain ⟨base, size, body⟩ := d
  cases body with
  | peripheral => rfl
  | memory data =>
    rw [Device.write_memory, Device.byteAt_memory, Device.byteAt_memory]
    by_cases hin : base ≤ x ∧ x < base + size
    · rw [if_pos hin, if_pos hin, Memory.byte_localWrite_outside _ _ _ _ (by simp only at ha; omega)]
    · rw [if_neg hin, if_neg hin]

/-- A write is seen byte by byte in a flat memory that accepts it (20_memory.md rule R43). -/
theorem Device.byteAt_write_inside {d : Device} {data : Memory} (hb : d.body = .memory data) (hd : d.wf = true) {a : Nat}
    {w : Width} (ha : d.accepts a w = true) (v : Word) {i : Nat} (hi : i < w.bytes) :
    (d.write a w v).byteAt (a + i) = some (v.extractLsb' (8 * i) 8) := by
  obtain ⟨base, size, body⟩ := d
  subst hb
  simp only [Device.wf, Bool.and_eq_true] at hd
  have hacc := (Device.accepts_iff hd.1 a w).1 ha
  simp only at hacc
  rw [Device.write_memory, Device.byteAt_memory, if_pos (by omega), show a + i - base = (a - base) + i by omega,
    Memory.byte_localWrite_inside hd.2 w v (by omega) hi]

theorem Device.wf_read {d : Device} (h : d.wf = true) (a : Nat) (w : Width) (sg : Bool) : (d.read a w sg).2.wf = true := by
  obtain ⟨base, size, body⟩ := d
  cases body <;> exact h

theorem Device.wf_reset {d : Device} (h : d.wf = true) : d.reset.wf = true := by
  obtain ⟨base, size, body⟩ := d
  cases body <;> exact h

/-- A write that the device accepts keeps it as the model admits it. -/
theorem Device.wf_write {d : Device} (h : d.wf = true) {a : Nat} {w : Width} (ha : d.accepts a w = true) (v : Word) :
    (d.write a w v).wf = true := by
  obtain ⟨base, size, body⟩ := d
  cases body with
  | peripheral => exact h
  | memory data =>
    simp only [Device.wf, Bool.and_eq_true] at h
    have hacc := (Device.accepts_iff h.1 a w).1 ha
    simp only at hacc
    simp only [Device.wf, Device.write, DeviceBody.localWrite, Bool.and_eq_true]
    exact ⟨h.1, Memory.wf_localWrite h.2 w v (by omega)⟩

/-! ### Routing -/

/-- What a routed read can do (20_memory.md rule R44): no device accepts; or the list splits at the first device that
does, which alone is read. -/
theorem readFirst_cases (a : Nat) (w : Width) (sg : Bool) (ds : List Device) :
    ((∀ d ∈ ds, d.accepts a w = false) ∧ readFirst a w sg ds = none) ∨
    ∃ before d rest, ds = before ++ d :: rest ∧ (∀ e ∈ before, e.accepts a w = false) ∧ d.accepts a w = true ∧
      readFirst a w sg ds = some ((d.read a w sg).1, before ++ (d.read a w sg).2 :: rest) := by
  induction ds with
  | nil => exact .inl ⟨by simp, rfl⟩
  | cons d ds ih =>
    by_cases hd : d.accepts a w = true
    · exact .inr ⟨[], d, ds, rfl, by simp, hd, by simp [readFirst, hd]⟩
    · have hd' : d.accepts a w = false := by simpa using hd
      obtain ⟨hno, hr⟩ | ⟨before, e, rest, hds, hb, he, hr⟩ := ih
      · exact .inl ⟨by simpa [hd'] using hno, by simp [readFirst, hd', hr]⟩
      · exact .inr ⟨d :: before, e, rest, by simp [hds], by simpa [hd'] using hb, he, by simp [readFirst, hd', hr]⟩

/-- The routed read when the first accepting device is known. -/
theorem readFirst_split {a : Nat} {w : Width} (sg : Bool) {before : List Device} {d : Device} {rest : List Device}
    (hb : ∀ e ∈ before, e.accepts a w = false) (hd : d.accepts a w = true) :
    readFirst a w sg (before ++ d :: rest) = some ((d.read a w sg).1, before ++ (d.read a w sg).2 :: rest) := by
  induction before with
  | nil => simp [readFirst, hd]
  | cons e before ih =>
    simp [readFirst, hb e (by simp), ih fun e' he' => hb e' (by simp [he'])]

/-- The routed read when no device accepts. -/
theorem readFirst_none {a : Nat} {w : Width} (sg : Bool) {ds : List Device} (h : ∀ d ∈ ds, d.accepts a w = false) :
    readFirst a w sg ds = none := by
  induction ds with
  | nil => rfl
  | cons d ds ih => simp [readFirst, h d (by simp), ih fun e he => h e (by simp [he])]

theorem acceptingDevices_isEmpty_iff (ds : List Device) (a : Nat) (w : Width) :
    (acceptingDevices ds a w).isEmpty = true ↔ ∀ d ∈ ds, d.accepts a w = false := by
  simp [acceptingDevices, List.filter_eq_nil_iff]

/-- What a bus read can do (20_memory.md rule R44): one of two next states, each written out. -/
theorem State.busRead_cases (s : State) (a : Word) (w : Width) (sg : Bool) :
    ((∀ d ∈ s.devices, d.accepts a.toNat w = false) ∧ s.busRead a w sg = (0#32, { s with busError := true })) ∨
    ∃ before d rest, s.devices = before ++ d :: rest ∧ (∀ e ∈ before, e.accepts a.toNat w = false) ∧
      d.accepts a.toNat w = true ∧
      s.busRead a w sg = ((d.read a.toNat w sg).1,
        { s with devices := before ++ (d.read a.toNat w sg).2 :: rest, busError := false }) := by
  obtain ⟨hno, hr⟩ | ⟨before, d, rest, hds, hb, hd, hr⟩ := readFirst_cases a.toNat w sg s.devices
  · exact .inl ⟨hno, by simp [State.busRead, hr]⟩
  · exact .inr ⟨before, d, rest, hds, hb, hd, by simp [State.busRead, hr]⟩

/-- What a bus write can do (20_memory.md rule R45): one of two next states, each written out. -/
theorem State.busWrite_cases (s : State) (a : Word) (w : Width) (v : Word) :
    ((∀ d ∈ s.devices, d.accepts a.toNat w = false) ∧ s.busWrite a w v = { s with busError := true }) ∨
    ((∃ d ∈ s.devices, d.accepts a.toNat w = true) ∧
      s.busWrite a w v = { s with devices := writeAll a.toNat w v s.devices, busError := false }) := by
  by_cases h : (acceptingDevices s.devices a.toNat w).isEmpty = true
  · exact .inl ⟨(acceptingDevices_isEmpty_iff _ _ _).1 h, by simp [State.busWrite, h]⟩
  · refine .inr ⟨?_, by simp [State.busWrite, h]⟩
    by_contra hno
    exact h ((acceptingDevices_isEmpty_iff _ _ _).2 fun d hd => by
      by_contra hacc
      exact hno ⟨d, hd, by simpa using hacc⟩)

/-- A read of the bus whose first accepting device is a flat memory: its bytes, and no device changed. -/
theorem State.busRead_memory {s : State} {a : Word} {w : Width} (sg : Bool) {before : List Device} {d : Device}
    {rest : List Device} {data : Memory} (hs : s.devices = before ++ d :: rest)
    (hb : ∀ e ∈ before, e.accepts a.toNat w = false) (hd : d.accepts a.toNat w = true) (hm : d.body = .memory data) :
    s.busRead a w sg = (extendRaw w sg (data.localRead (a.toNat - d.base) w), { s with busError := false }) := by
  simp only [State.busRead, hs, readFirst_split sg hb hd, Device.read_memory hm]

/-- A bus read leaves every byte of the flat memories as it was. -/
@[simp] theorem State.bytesAt_busRead (s : State) (a : Word) (w : Width) (sg : Bool) (x : Nat) :
    (s.busRead a w sg).2.bytesAt x = s.bytesAt x := by
  obtain ⟨-, h⟩ | ⟨before, d, rest, hds, -, -, h⟩ := s.busRead_cases a w sg
  · rw [h]; rfl
  · rw [h]; simp [State.bytesAt, hds]

/-- A bus write leaves every byte outside its range as it was. -/
theorem State.bytesAt_busWrite_outside (s : State) (a : Word) (w : Width) (v : Word) {x : Nat}
    (hx : x < a.toNat ∨ a.toNat + w.bytes ≤ x) : (s.busWrite a w v).bytesAt x = s.bytesAt x := by
  obtain ⟨-, h⟩ | ⟨-, h⟩ := s.busWrite_cases a w v
  · rw [h]; rfl
  · rw [h]
    simp only [State.bytesAt, writeAll, List.map_map]
    refine List.map_congr_left fun d _ => ?_
    simp only [Function.comp]
    split
    · rename_i hacc
      simp only [Device.accepts, Bool.and_eq_true, decide_eq_true_eq] at hacc
      exact Device.byteAt_write_outside d _ w v hx hacc.1
    · rfl

/-- A bus read keeps every device as the model admits it. -/
theorem State.wf_busRead {s : State} (h : s.devices.all Device.wf = true) (a : Word) (w : Width) (sg : Bool) :
    (s.busRead a w sg).2.devices.all Device.wf = true := by
  obtain ⟨-, hr⟩ | ⟨before, d, rest, hds, -, -, hr⟩ := s.busRead_cases a w sg
  · rw [hr]; exact h
  · rw [hds] at h
    simp only [List.all_append, List.all_cons, Bool.and_eq_true] at h
    rw [hr]
    simp only [List.all_append, List.all_cons, Bool.and_eq_true]
    exact ⟨h.1, Device.wf_read h.2.1 _ _ _, h.2.2⟩

/-- A bus write keeps every device as the model admits it. -/
theorem State.wf_busWrite {s : State} (h : s.devices.all Device.wf = true) (a : Word) (w : Width) (v : Word) :
    (s.busWrite a w v).devices.all Device.wf = true := by
  obtain ⟨-, hr⟩ | ⟨-, hr⟩ := s.busWrite_cases a w v
  · rw [hr]; exact h
  · rw [hr]
    simp only [writeAll, List.all_map, List.all_eq_true, Function.comp] at h ⊢
    intro d hd
    split
    · exact Device.wf_write (h d hd) ‹_› v
    · exact h d hd

end Sys2Proof.Machine
end

