-- ==== Sys2Proof/Laws/DecodeCases.lean ====
section
/-! SUPPORT. What the decoder can answer: one case per row, each with the field values the row tests (30_encoding.md rules
R80, R81). Later proofs take a decoded word apart by these cases and never unfold the decoder. -/

namespace Sys2Proof

/-- The word has the opcode, `funct3` and `funct7` of a row, and these are the row's operands. -/
inductive DecodesAs (w : Word) : Instr → Prop where
  | lui (ho : opcodeOf w = 0b0110111#7) : DecodesAs w (.lui (rdOf w) (imm20Of w))
  | auipc (ho : opcodeOf w = 0b0010111#7) : DecodesAs w (.auipc (rdOf w) (imm20Of w))
  | jal (ho : opcodeOf w = 0b1101111#7) : DecodesAs w (.jal (rdOf w) (offsetJOf w))
  | jalr (ho : opcodeOf w = 0b1100111#7) (h3 : funct3Of w = 0b000#3) : DecodesAs w (.jalr (rdOf w) (rs1Of w) (immIOf w))
  | beq (ho : opcodeOf w = 0b1100011#7) (h3 : funct3Of w = 0b000#3) : DecodesAs w (.beq (rs1Of w) (rs2Of w) (offsetBOf w))
  | bne (ho : opcodeOf w = 0b1100011#7) (h3 : funct3Of w = 0b001#3) : DecodesAs w (.bne (rs1Of w) (rs2Of w) (offsetBOf w))
  | blt (ho : opcodeOf w = 0b1100011#7) (h3 : funct3Of w = 0b100#3) : DecodesAs w (.blt (rs1Of w) (rs2Of w) (offsetBOf w))
  | bge (ho : opcodeOf w = 0b1100011#7) (h3 : funct3Of w = 0b101#3) : DecodesAs w (.bge (rs1Of w) (rs2Of w) (offsetBOf w))
  | bltu (ho : opcodeOf w = 0b1100011#7) (h3 : funct3Of w = 0b110#3) : DecodesAs w (.bltu (rs1Of w) (rs2Of w) (offsetBOf w))
  | bgeu (ho : opcodeOf w = 0b1100011#7) (h3 : funct3Of w = 0b111#3) : DecodesAs w (.bgeu (rs1Of w) (rs2Of w) (offsetBOf w))
  | lb (ho : opcodeOf w = 0b0000011#7) (h3 : funct3Of w = 0b000#3) : DecodesAs w (.lb (rdOf w) (rs1Of w) (immIOf w))
  | lh (ho : opcodeOf w = 0b0000011#7) (h3 : funct3Of w = 0b001#3) : DecodesAs w (.lh (rdOf w) (rs1Of w) (immIOf w))
  | lw (ho : opcodeOf w = 0b0000011#7) (h3 : funct3Of w = 0b010#3) : DecodesAs w (.lw (rdOf w) (rs1Of w) (immIOf w))
  | lbu (ho : opcodeOf w = 0b0000011#7) (h3 : funct3Of w = 0b100#3) : DecodesAs w (.lbu (rdOf w) (rs1Of w) (immIOf w))
  | lhu (ho : opcodeOf w = 0b0000011#7) (h3 : funct3Of w = 0b101#3) : DecodesAs w (.lhu (rdOf w) (rs1Of w) (immIOf w))
  | sb (ho : opcodeOf w = 0b0100011#7) (h3 : funct3Of w = 0b000#3) : DecodesAs w (.sb (rs2Of w) (rs1Of w) (immSOf w))
  | sh (ho : opcodeOf w = 0b0100011#7) (h3 : funct3Of w = 0b001#3) : DecodesAs w (.sh (rs2Of w) (rs1Of w) (immSOf w))
  | sw (ho : opcodeOf w = 0b0100011#7) (h3 : funct3Of w = 0b010#3) : DecodesAs w (.sw (rs2Of w) (rs1Of w) (immSOf w))
  | addi (ho : opcodeOf w = 0b0010011#7) (h3 : funct3Of w = 0b000#3) : DecodesAs w (.addi (rdOf w) (rs1Of w) (immIOf w))
  | slti (ho : opcodeOf w = 0b0010011#7) (h3 : funct3Of w = 0b010#3) : DecodesAs w (.slti (rdOf w) (rs1Of w) (immIOf w))
  | sltiu (ho : opcodeOf w = 0b0010011#7) (h3 : funct3Of w = 0b011#3) : DecodesAs w (.sltiu (rdOf w) (rs1Of w) (immIOf w))
  | xori (ho : opcodeOf w = 0b0010011#7) (h3 : funct3Of w = 0b100#3) : DecodesAs w (.xori (rdOf w) (rs1Of w) (immIOf w))
  | ori (ho : opcodeOf w = 0b0010011#7) (h3 : funct3Of w = 0b110#3) : DecodesAs w (.ori (rdOf w) (rs1Of w) (immIOf w))
  | andi (ho : opcodeOf w = 0b0010011#7) (h3 : funct3Of w = 0b111#3) : DecodesAs w (.andi (rdOf w) (rs1Of w) (immIOf w))
  | slli (ho : opcodeOf w = 0b0010011#7) (h3 : funct3Of w = 0b001#3) (h7 : funct7Of w = 0b0000000#7) :
      DecodesAs w (.slli (rdOf w) (rs1Of w) (rs2Of w))
  | srli (ho : opcodeOf w = 0b0010011#7) (h3 : funct3Of w = 0b101#3) (h7 : funct7Of w = 0b0000000#7) :
      DecodesAs w (.srli (rdOf w) (rs1Of w) (rs2Of w))
  | srai (ho : opcodeOf w = 0b0010011#7) (h3 : funct3Of w = 0b101#3) (h7 : funct7Of w = 0b0100000#7) :
      DecodesAs w (.srai (rdOf w) (rs1Of w) (rs2Of w))
  | add (ho : opcodeOf w = 0b0110011#7) (h3 : funct3Of w = 0b000#3) (h7 : funct7Of w = 0b0000000#7) :
      DecodesAs w (.add (rdOf w) (rs1Of w) (rs2Of w))
  | sub (ho : opcodeOf w = 0b0110011#7) (h3 : funct3Of w = 0b000#3) (h7 : funct7Of w = 0b0100000#7) :
      DecodesAs w (.sub (rdOf w) (rs1Of w) (rs2Of w))
  | sll (ho : opcodeOf w = 0b0110011#7) (h3 : funct3Of w = 0b001#3) (h7 : funct7Of w = 0b0000000#7) :
      DecodesAs w (.sll (rdOf w) (rs1Of w) (rs2Of w))
  | slt (ho : opcodeOf w = 0b0110011#7) (h3 : funct3Of w = 0b010#3) (h7 : funct7Of w = 0b0000000#7) :
      DecodesAs w (.slt (rdOf w) (rs1Of w) (rs2Of w))
  | sltu (ho : opcodeOf w = 0b0110011#7) (h3 : funct3Of w = 0b011#3) (h7 : funct7Of w = 0b0000000#7) :
      DecodesAs w (.sltu (rdOf w) (rs1Of w) (rs2Of w))
  | xor (ho : opcodeOf w = 0b0110011#7) (h3 : funct3Of w = 0b100#3) (h7 : funct7Of w = 0b0000000#7) :
      DecodesAs w (.xor (rdOf w) (rs1Of w) (rs2Of w))
  | srl (ho : opcodeOf w = 0b0110011#7) (h3 : funct3Of w = 0b101#3) (h7 : funct7Of w = 0b0000000#7) :
      DecodesAs w (.srl (rdOf w) (rs1Of w) (rs2Of w))
  | sra (ho : opcodeOf w = 0b0110011#7) (h3 : funct3Of w = 0b101#3) (h7 : funct7Of w = 0b0100000#7) :
      DecodesAs w (.sra (rdOf w) (rs1Of w) (rs2Of w))
  | or (ho : opcodeOf w = 0b0110011#7) (h3 : funct3Of w = 0b110#3) (h7 : funct7Of w = 0b0000000#7) :
      DecodesAs w (.or (rdOf w) (rs1Of w) (rs2Of w))
  | and (ho : opcodeOf w = 0b0110011#7) (h3 : funct3Of w = 0b111#3) (h7 : funct7Of w = 0b0000000#7) :
      DecodesAs w (.and (rdOf w) (rs1Of w) (rs2Of w))
  | mret (hw : w = 0x30200073#32) : DecodesAs w .mret

section Groups
variable {w : Word}

theorem decodeBranch_cases (ho : opcodeOf w = 0b1100011#7) :
    DecodesAs w (decodeBranch w) ∨ decodeBranch w = .invalid w := by
  unfold decodeBranch
  split_ifs with h0 h1 h4 h5 h6 h7
  · exact .inl (.beq ho h0)
  · exact .inl (.bne ho h1)
  · exact .inl (.blt ho h4)
  · exact .inl (.bge ho h5)
  · exact .inl (.bltu ho h6)
  · exact .inl (.bgeu ho h7)
  · exact .inr rfl

theorem decodeLoad_cases (ho : opcodeOf w = 0b0000011#7) :
    DecodesAs w (decodeLoad w) ∨ decodeLoad w = .invalid w := by
  unfold decodeLoad
  split_ifs with h0 h1 h2 h4 h5
  · exact .inl (.lb ho h0)
  · exact .inl (.lh ho h1)
  · exact .inl (.lw ho h2)
  · exact .inl (.lbu ho h4)
  · exact .inl (.lhu ho h5)
  · exact .inr rfl

theorem decodeStore_cases (ho : opcodeOf w = 0b0100011#7) :
    DecodesAs w (decodeStore w) ∨ decodeStore w = .invalid w := by
  unfold decodeStore
  split_ifs with h0 h1 h2
  · exact .inl (.sb ho h0)
  · exact .inl (.sh ho h1)
  · exact .inl (.sw ho h2)
  · exact .inr rfl

theorem decodeImmediate_cases (ho : opcodeOf w = 0b0010011#7) :
    DecodesAs w (decodeImmediate w) ∨ decodeImmediate w = .invalid w := by
  unfold decodeImmediate
  split_ifs with h0 h2 h3 h4 h6 h7 h1 h5 h5'
  · exact .inl (.addi ho h0)
  · exact .inl (.slti ho h2)
  · exact .inl (.sltiu ho h3)
  · exact .inl (.xori ho h4)
  · exact .inl (.ori ho h6)
  · exact .inl (.andi ho h7)
  · exact .inl (.slli ho h1.1 h1.2)
  · exact .inl (.srli ho h5.1 h5.2)
  · exact .inl (.srai ho h5'.1 h5'.2)
  · exact .inr rfl

/-- The eight values of `funct3`. -/
theorem funct3_values (x : BitVec 3) : x = 0b000#3 ∨ x = 0b001#3 ∨ x = 0b010#3 ∨ x = 0b011#3 ∨ x = 0b100#3 ∨ x = 0b101#3 ∨
    x = 0b110#3 ∨ x = 0b111#3 := by
  revert x; decide

theorem decodeRegisterPlain_decodesAs (ho : opcodeOf w = 0b0110011#7) (h7 : funct7Of w = 0b0000000#7) :
    DecodesAs w (decodeRegisterPlain w) := by
  unfold decodeRegisterPlain
  split_ifs with h0 h1 h2 h3 h4 h5 h6
  · exact .add ho h0 h7
  · exact .sll ho h1 h7
  · exact .slt ho h2 h7
  · exact .sltu ho h3 h7
  · exact .xor ho h4 h7
  · exact .srl ho h5 h7
  · exact .or ho h6 h7
  · have hx : funct3Of w = 0b111#3 := by
      have := funct3_values (funct3Of w)
      tauto
    exact .and ho hx h7

theorem decodeRegister_cases (ho : opcodeOf w = 0b0110011#7) :
    DecodesAs w (decodeRegister w) ∨ decodeRegister w = .invalid w := by
  unfold decodeRegister
  split_ifs with h7 h0 h5
  · exact .inl (decodeRegisterPlain_decodesAs ho h7)
  · exact .inl (.sub ho h0.2 h0.1)
  · exact .inl (.sra ho h5.2 h5.1)
  · exact .inr rfl

end Groups

/-- What the decoder can answer: the instruction of a row whose fields the word has, or `invalid` with the word. -/
theorem decode_cases (w : Word) : DecodesAs w (decode w) ∨ decode w = .invalid w := by
  unfold decode
  split_ifs with h1 h2 h3 h4 h5 h6 h7 h8 h9 h10
  · exact .inl (.lui h1)
  · exact .inl (.auipc h2)
  · exact .inl (.jal h3)
  · exact .inl (.jalr h4.1 h4.2)
  · exact decodeBranch_cases h5
  · exact decodeLoad_cases h6
  · exact decodeStore_cases h7
  · exact decodeImmediate_cases h8
  · exact decodeRegister_cases h9
  · exact .inl (.mret h10)
  · exact .inr rfl

/-- A word with the fields of a row decodes to that row's instruction. -/
theorem DecodesAs.decode_eq {w : Word} {i : Instr} (h : DecodesAs w i) : decode w = i := by
  cases h
  case mret hw => rw [hw]; decide
  all_goals simp [decode, decodeBranch, decodeLoad, decodeStore, decodeImmediate, decodeRegister, decodeRegisterPlain, *]

/-- The instruction of a row is not `invalid`, and it is well-formed. -/
theorem DecodesAs.wf {w : Word} {i : Instr} (h : DecodesAs w i) : i.wf = true := by
  cases h <;> simp [Instr.wf]

/-- The instruction of a row encodes to the word it came from. -/
theorem DecodesAs.encode_eq {w : Word} {i : Instr} (h : DecodesAs w i) : encode i = w := by
  cases h
  case mret hw => rw [hw]; rfl
  case jal ho => rw [encode, ← ho, encodeJ_fields]
  case lui ho | auipc ho => rw [encode, ← ho, encodeU_fields]
  case beq ho h3 | bne ho h3 | blt ho h3 | bge ho h3 | bltu ho h3 | bgeu ho h3 =>
    rw [encode, ← ho, ← h3, encodeB_fields]
  case sb ho h3 | sh ho h3 | sw ho h3 => rw [encode, ← ho, ← h3, encodeS_fields]
  case slli ho h3 h7 | srli ho h3 h7 | srai ho h3 h7 => rw [encode, ← ho, ← h3, ← h7, encodeR_fields]
  case add ho h3 h7 | sub ho h3 h7 | sll ho h3 h7 | slt ho h3 h7 | sltu ho h3 h7 | xor ho h3 h7 | srl ho h3 h7
      | sra ho h3 h7 | or ho h3 h7 | and ho h3 h7 => rw [encode, ← ho, ← h3, ← h7, encodeR_fields]
  case jalr ho h3 | lb ho h3 | lh ho h3 | lw ho h3 | lbu ho h3 | lhu ho h3 | addi ho h3 | slti ho h3 | sltiu ho h3
      | xori ho h3 | ori ho h3 | andi ho h3 => rw [encode, ← ho, ← h3, encodeI_fields]

end Sys2Proof
end

