-- ==== Sys2Proof/Laws/Exec.lean ====
section
/-! SUPPORT. What one instruction can do: an inversion of `exec` that later proofs cite instead of unfolding it, and the
control-flow update. -/

namespace Sys2Proof.Machine

/-- What step 8 of the cycle can do to the state (40_execution_engine.md rule R109). -/
inductive WritebackOf (s : State) : State → Prop where
  | nothing : WritebackOf s s
  | register (rd : RegIdx) (v : Word) : WritebackOf s (s.writeReg rd v)
  | load (rd : RegIdx) (a : Word) (w : Width) (sg : Bool) :
      WritebackOf s ((s.busRead a w sg).2.writeReg rd (s.busRead a w sg).1)
  | store (a : Word) (w : Width) (v : Word) : WritebackOf s (s.busWrite a w v)

/-- An answer that is a writeback, the control-flow update and the trace, as every instruction but `mret` gives. -/
def Ordinary (i : Instr) (s : State) (o : Host.Outcome State Fault Refusal) : Prop :=
  ∃ s' v, WritebackOf s s' ∧ o = .next ((s'.advance v.taken v.r).emit (s.traceOf i.record v))

theorem writeResult_ordinary (i : Instr) (rd : RegIdx) (a b r : Word) (s : State) :
    Ordinary i s (writeResult i rd a b r s) :=
  ⟨_, ⟨a, b, r, 0#32, false, false⟩, .register rd r, rfl⟩

theorem jumpAndLink_ordinary (i : Instr) (rd : RegIdx) (a b r : Word) (s : State) :
    Ordinary i s (jumpAndLink i rd a b r s) :=
  ⟨_, ⟨a, b, r, 0#32, true, false⟩, .register rd s.incPc, rfl⟩

theorem conditionalBranch_ordinary (i : Instr) (c : BranchCond) (rs1 rs2 : RegIdx) (offset : BitVec 13) (s : State) :
    Ordinary i s (conditionalBranch i c rs1 rs2 offset s) :=
  ⟨s, ⟨s.pc, sextOffsetB offset, s.pcRelative (sextOffsetB offset), 0#32,
    branchTaken c (s.readReg rs1) (s.readReg rs2), false⟩, .nothing, rfl⟩

theorem load_ordinary (i : Instr) (w : Width) (sg : Bool) (rd rs1 : RegIdx) (imm : BitVec 12) (s : State) :
    Ordinary i s (load i w sg rd rs1 imm s) :=
  ⟨_, ⟨s.readReg rs1, sextImm imm, s.effectiveAddress rs1 imm, (s.busRead (s.effectiveAddress rs1 imm) w sg).1, false,
    (s.busRead (s.effectiveAddress rs1 imm) w sg).2.busError⟩, .load rd (s.effectiveAddress rs1 imm) w sg, rfl⟩

theorem store_ordinary (i : Instr) (w : Width) (rs2 rs1 : RegIdx) (imm : BitVec 12) (s : State) :
    Ordinary i s (store i w rs2 rs1 imm s) :=
  ⟨_, ⟨s.readReg rs1, sextImm imm, s.effectiveAddress rs1 imm, 0#32, false,
    (s.busWrite (s.effectiveAddress rs1 imm) w (s.readReg rs2)).busError⟩,
    .store (s.effectiveAddress rs1 imm) w (s.readReg rs2), rfl⟩

/-- Every instruction gives a next state: the return of `mret`, or an ordinary one. -/
theorem exec_inversion (i : Instr) (s : State) :
    (i = .mret ∧ exec i s = .next (s.advanceMret.emit (s.traceOf i.record noValues))) ∨
    (i ≠ .mret ∧ Ordinary i s (exec i s)) := by
  cases i
  case mret => exact .inl ⟨rfl, rfl⟩
  case invalid => exact .inr ⟨by simp, s, noValues, .nothing, rfl⟩
  case lui | auipc | addi | slti | sltiu | xori | ori | andi | slli | srli | srai | add | sub | sll | slt | sltu | xor
      | srl | sra | or | and => exact .inr ⟨by simp, writeResult_ordinary _ _ _ _ _ s⟩
  case jal | jalr => exact .inr ⟨by simp, jumpAndLink_ordinary _ _ _ _ _ s⟩
  case beq | bne | blt | bge | bltu | bgeu => exact .inr ⟨by simp, conditionalBranch_ordinary _ _ _ _ _ s⟩
  case lb | lh | lw | lbu | lhu => exact .inr ⟨by simp, load_ordinary _ _ _ _ _ _ s⟩
  case sb | sh | sw => exact .inr ⟨by simp, store_ordinary _ _ _ _ _ s⟩

/-- A writeback touches none of `pc`, `mepc`, `irqState`, nor the sampled values. -/
theorem WritebackOf.control {s s' : State} (h : WritebackOf s s') :
    s'.pc = s.pc ∧ s'.mepc = s.mepc ∧ s'.irqState = s.irqState ∧ s'.irqSample = s.irqSample ∧
      s'.registerCount = s.registerCount := by
  cases h with
  | nothing => simp
  | register => simp
  | load => simp [State.registerCount_congr (State.busRead_regs s _ _ _)]
  | store => simp [State.registerCount_congr (State.busWrite_regs s _ _ _)]

/-- A writeback keeps every device as the model admits it. -/
theorem WritebackOf.wf {s s' : State} (h : WritebackOf s s') (hs : s.devices.all Device.wf = true) :
    s'.devices.all Device.wf = true := by
  cases h with
  | nothing => exact hs
  | register => simpa using hs
  | load => simpa using State.wf_busRead hs _ _ _
  | store => exact State.wf_busWrite hs _ _ _

/-- The control-flow update written out (40_execution_engine.md rule R110, cases 1, 3 and 4). -/
theorem State.advance_control (s : State) (taken : Bool) (r : Word) :
    if s.irqSample = true ∧ s.irqState = false then
      (s.advance taken r).mepc = s.target taken r ∧ (s.advance taken r).pc = 4#32 ∧ (s.advance taken r).irqState = true
    else
      (s.advance taken r).pc = alignPc (s.target taken r) ∧ (s.advance taken r).mepc = s.mepc ∧
        (s.advance taken r).irqState = s.irqState := by
  unfold State.advance State.enteringIrq
  cases hl : s.irqSample <;> cases hm : s.irqState <;> simp [hm]

/-- The control-flow update of `mret` written out (R110, cases 1 and 2). -/
theorem State.advanceMret_control (s : State) :
    if s.irqSample = true ∧ s.irqState = false then
      s.advanceMret.mepc = s.incPc ∧ s.advanceMret.pc = 4#32 ∧ s.advanceMret.irqState = true
    else
      s.advanceMret.pc = alignPc s.mepc ∧ s.advanceMret.mepc = s.mepc ∧ s.advanceMret.irqState = false := by
  unfold State.advanceMret State.enteringIrq
  cases hl : s.irqSample <;> cases hm : s.irqState <;> simp

/-- `alignPc` leaves a number that 4 divides (10_state.md rule R15). -/
theorem alignPc_toNat_mod (v : Word) : (alignPc v).toNat % 4 = 0 := by
  have h0 : (alignPc v).getLsbD 0 = false := by simp [alignPc]
  have h1 : (alignPc v).getLsbD 1 = false := by simp [alignPc]
  rw [BitVec.getLsbD, Nat.testBit_eq_decide_div_mod_eq] at h0 h1
  simp only [pow_zero, Nat.div_one, pow_one, decide_eq_false_iff_not] at h0 h1
  omega

/-- The sample and the fetch touch no register and no control state (40_execution_engine.md rule R101). -/
theorem State.fetch_control (s : State) :
    s.fetch.2.regs = s.regs ∧ s.fetch.2.pc = s.pc ∧ s.fetch.2.mepc = s.mepc ∧ s.fetch.2.irqState = s.irqState ∧
      s.fetch.2.irqSample = s.busIrq ∧ s.fetch.2.fetchError = s.fetch.2.busError := by
  simp [State.fetch]

/-- A step is the instruction its fetch finds (40_execution_engine.md rule R100). -/
theorem step_eq (s : State) : step s = exec (decode s.fetch.1) s.fetch.2 := rfl

end Sys2Proof.Machine
end

