-- ==== Sys2Proof/Laws/OpcodeTable.lean ====
section
/-! SUPPORT. The opcode table and the decoder agree, row by row (30_encoding.md rules R80, R81, R83): a row's mask and match
test exactly the fields the decoder tests. -/

namespace Sys2Proof

section Masks
variable {w p : Word}

theorem opcode_of_opcodeMask (h : w &&& 0x0000007F#32 = p) : opcodeOf w = opcodeOf p := by
  rw [and_opcodeMask] at h
  simpa using congrArg opcodeOf h

theorem opcode_of_functMask (h : w &&& 0x0000707F#32 = p) : opcodeOf w = opcodeOf p := by
  rw [and_functMask] at h
  simpa using congrArg opcodeOf h

theorem funct3_of_functMask (h : w &&& 0x0000707F#32 = p) : funct3Of w = funct3Of p := by
  rw [and_functMask] at h
  simpa using congrArg funct3Of h

theorem opcode_of_fullMask (h : w &&& 0xFE00707F#32 = p) : opcodeOf w = opcodeOf p := by
  rw [and_fullMask] at h
  simpa using congrArg opcodeOf h

theorem funct3_of_fullMask (h : w &&& 0xFE00707F#32 = p) : funct3Of w = funct3Of p := by
  rw [and_fullMask] at h
  simpa using congrArg funct3Of h

theorem funct7_of_fullMask (h : w &&& 0xFE00707F#32 = p) : funct7Of w = funct7Of p := by
  rw [and_fullMask] at h
  simpa using congrArg funct7Of h

theorem word_of_allMask (h : w &&& 0xFFFFFFFF#32 = p) : w = p := by
  rw [← h, show 0xFFFFFFFF#32 = BitVec.allOnes 32 from rfl, BitVec.and_allOnes]

end Masks

/-! ### A word that matches a row has the row's fields -/

/-- Some instruction of this name has its fields in the word. -/
def DecodesToName (w : Word) (name : Mnemonic) : Prop := ∃ i, DecodesAs w i ∧ i.mnemonic = name

theorem upperJumpRows_match (w : Word) : ∀ row ∈ upperJumpRows, w &&& row.mask = row.pattern → DecodesToName w row.name := by
  simp only [upperJumpRows, List.forall_mem_cons]
  exact ⟨fun h => ⟨_, .lui (opcode_of_opcodeMask h), rfl⟩,
    fun h => ⟨_, .auipc (opcode_of_opcodeMask h), rfl⟩,
    fun h => ⟨_, .jal (opcode_of_opcodeMask h), rfl⟩,
    fun h => ⟨_, .jalr (opcode_of_functMask h) (funct3_of_functMask h), rfl⟩,
    fun _ h => nomatch h⟩

theorem branchRows_match (w : Word) : ∀ row ∈ branchRows, w &&& row.mask = row.pattern → DecodesToName w row.name := by
  simp only [branchRows, List.forall_mem_cons]
  exact ⟨fun h => ⟨_, .beq (opcode_of_functMask h) (funct3_of_functMask h), rfl⟩,
    fun h => ⟨_, .bne (opcode_of_functMask h) (funct3_of_functMask h), rfl⟩,
    fun h => ⟨_, .blt (opcode_of_functMask h) (funct3_of_functMask h), rfl⟩,
    fun h => ⟨_, .bge (opcode_of_functMask h) (funct3_of_functMask h), rfl⟩,
    fun h => ⟨_, .bltu (opcode_of_functMask h) (funct3_of_functMask h), rfl⟩,
    fun h => ⟨_, .bgeu (opcode_of_functMask h) (funct3_of_functMask h), rfl⟩,
    fun _ h => nomatch h⟩

theorem memoryRows_match (w : Word) : ∀ row ∈ memoryRows, w &&& row.mask = row.pattern → DecodesToName w row.name := by
  simp only [memoryRows, List.forall_mem_cons]
  exact ⟨fun h => ⟨_, .lb (opcode_of_functMask h) (funct3_of_functMask h), rfl⟩,
    fun h => ⟨_, .lh (opcode_of_functMask h) (funct3_of_functMask h), rfl⟩,
    fun h => ⟨_, .lw (opcode_of_functMask h) (funct3_of_functMask h), rfl⟩,
    fun h => ⟨_, .lbu (opcode_of_functMask h) (funct3_of_functMask h), rfl⟩,
    fun h => ⟨_, .lhu (opcode_of_functMask h) (funct3_of_functMask h), rfl⟩,
    fun h => ⟨_, .sb (opcode_of_functMask h) (funct3_of_functMask h), rfl⟩,
    fun h => ⟨_, .sh (opcode_of_functMask h) (funct3_of_functMask h), rfl⟩,
    fun h => ⟨_, .sw (opcode_of_functMask h) (funct3_of_functMask h), rfl⟩,
    fun _ h => nomatch h⟩

theorem immediateRows_match (w : Word) : ∀ row ∈ immediateRows, w &&& row.mask = row.pattern → DecodesToName w row.name := by
  simp only [immediateRows, List.forall_mem_cons]
  exact ⟨fun h => ⟨_, .addi (opcode_of_functMask h) (funct3_of_functMask h), rfl⟩,
    fun h => ⟨_, .slti (opcode_of_functMask h) (funct3_of_functMask h), rfl⟩,
    fun h => ⟨_, .sltiu (opcode_of_functMask h) (funct3_of_functMask h), rfl⟩,
    fun h => ⟨_, .xori (opcode_of_functMask h) (funct3_of_functMask h), rfl⟩,
    fun h => ⟨_, .ori (opcode_of_functMask h) (funct3_of_functMask h), rfl⟩,
    fun h => ⟨_, .andi (opcode_of_functMask h) (funct3_of_functMask h), rfl⟩,
    fun h => ⟨_, .slli (opcode_of_fullMask h) (funct3_of_fullMask h) (funct7_of_fullMask h), rfl⟩,
    fun h => ⟨_, .srli (opcode_of_fullMask h) (funct3_of_fullMask h) (funct7_of_fullMask h), rfl⟩,
    fun h => ⟨_, .srai (opcode_of_fullMask h) (funct3_of_fullMask h) (funct7_of_fullMask h), rfl⟩,
    fun _ h => nomatch h⟩

theorem registerRows_match (w : Word) : ∀ row ∈ registerRows, w &&& row.mask = row.pattern → DecodesToName w row.name := by
  simp only [registerRows, List.forall_mem_cons]
  exact ⟨fun h => ⟨_, .add (opcode_of_fullMask h) (funct3_of_fullMask h) (funct7_of_fullMask h), rfl⟩,
    fun h => ⟨_, .sub (opcode_of_fullMask h) (funct3_of_fullMask h) (funct7_of_fullMask h), rfl⟩,
    fun h => ⟨_, .sll (opcode_of_fullMask h) (funct3_of_fullMask h) (funct7_of_fullMask h), rfl⟩,
    fun h => ⟨_, .slt (opcode_of_fullMask h) (funct3_of_fullMask h) (funct7_of_fullMask h), rfl⟩,
    fun h => ⟨_, .sltu (opcode_of_fullMask h) (funct3_of_fullMask h) (funct7_of_fullMask h), rfl⟩,
    fun h => ⟨_, .xor (opcode_of_fullMask h) (funct3_of_fullMask h) (funct7_of_fullMask h), rfl⟩,
    fun h => ⟨_, .srl (opcode_of_fullMask h) (funct3_of_fullMask h) (funct7_of_fullMask h), rfl⟩,
    fun h => ⟨_, .sra (opcode_of_fullMask h) (funct3_of_fullMask h) (funct7_of_fullMask h), rfl⟩,
    fun h => ⟨_, .or (opcode_of_fullMask h) (funct3_of_fullMask h) (funct7_of_fullMask h), rfl⟩,
    fun h => ⟨_, .and (opcode_of_fullMask h) (funct3_of_fullMask h) (funct7_of_fullMask h), rfl⟩,
    fun _ h => nomatch h⟩

theorem systemRows_match (w : Word) : ∀ row ∈ systemRows, w &&& row.mask = row.pattern → DecodesToName w row.name := by
  simp only [systemRows, List.forall_mem_cons]
  exact ⟨fun h => ⟨_, .mret (word_of_allMask h), rfl⟩,
    fun _ h => nomatch h⟩

/-- A word that matches a row of the table has that row's fields. -/
theorem opcodeTable_match {w : Word} {row : OpcodeRow} (hr : row ∈ opcodeTable) (h : w &&& row.mask = row.pattern) :
    DecodesToName w row.name := by
  simp only [opcodeTable, List.mem_append] at hr
  obtain ((((hr | hr) | hr) | hr) | hr) | hr := hr
  · exact upperJumpRows_match w row hr h
  · exact branchRows_match w row hr h
  · exact memoryRows_match w row hr h
  · exact immediateRows_match w row hr h
  · exact registerRows_match w row hr h
  · exact systemRows_match w row hr h

/-! ### A word with a row's fields matches the row -/

/-- The table has one row per name. -/
theorem opcodeTable_name_injective : ∀ row ∈ opcodeTable, ∀ row' ∈ opcodeTable, row.name = row'.name → row = row' := by
  decide

/-- Every name but `invalid` has a row. -/
theorem exists_row (name : Mnemonic) (h : name ≠ .invalid) : ∃ row ∈ opcodeTable, row.name = name := by
  revert h
  cases name <;> decide

/-- `invalid` has none. -/
theorem no_invalid_row : ∀ row ∈ opcodeTable, row.name ≠ .invalid := by decide

/-- A word with the fields of a row matches it. -/
theorem DecodesAs.exists_row_match {w : Word} {i : Instr} (h : DecodesAs w i) :
    ∃ row ∈ opcodeTable, row.name = i.mnemonic ∧ w &&& row.mask = row.pattern := by
  cases h
  case lui ho => exact ⟨⟨.lui, 0x00000037#32, 0x0000007F#32⟩, by decide, rfl, by rw [and_opcodeMask, ho]; rfl⟩
  case auipc ho => exact ⟨⟨.auipc, 0x00000017#32, 0x0000007F#32⟩, by decide, rfl, by rw [and_opcodeMask, ho]; rfl⟩
  case jal ho => exact ⟨⟨.jal, 0x0000006F#32, 0x0000007F#32⟩, by decide, rfl, by rw [and_opcodeMask, ho]; rfl⟩
  case jalr ho h3 => exact ⟨⟨.jalr, 0x00000067#32, 0x0000707F#32⟩, by decide, rfl, by rw [and_functMask, ho, h3]; rfl⟩
  case beq ho h3 => exact ⟨⟨.beq, 0x00000063#32, 0x0000707F#32⟩, by decide, rfl, by rw [and_functMask, ho, h3]; rfl⟩
  case bne ho h3 => exact ⟨⟨.bne, 0x00001063#32, 0x0000707F#32⟩, by decide, rfl, by rw [and_functMask, ho, h3]; rfl⟩
  case blt ho h3 => exact ⟨⟨.blt, 0x00004063#32, 0x0000707F#32⟩, by decide, rfl, by rw [and_functMask, ho, h3]; rfl⟩
  case bge ho h3 => exact ⟨⟨.bge, 0x00005063#32, 0x0000707F#32⟩, by decide, rfl, by rw [and_functMask, ho, h3]; rfl⟩
  case bltu ho h3 => exact ⟨⟨.bltu, 0x00006063#32, 0x0000707F#32⟩, by decide, rfl, by rw [and_functMask, ho, h3]; rfl⟩
  case bgeu ho h3 => exact ⟨⟨.bgeu, 0x00007063#32, 0x0000707F#32⟩, by decide, rfl, by rw [and_functMask, ho, h3]; rfl⟩
  case lb ho h3 => exact ⟨⟨.lb, 0x00000003#32, 0x0000707F#32⟩, by decide, rfl, by rw [and_functMask, ho, h3]; rfl⟩
  case lh ho h3 => exact ⟨⟨.lh, 0x00001003#32, 0x0000707F#32⟩, by decide, rfl, by rw [and_functMask, ho, h3]; rfl⟩
  case lw ho h3 => exact ⟨⟨.lw, 0x00002003#32, 0x0000707F#32⟩, by decide, rfl, by rw [and_functMask, ho, h3]; rfl⟩
  case lbu ho h3 => exact ⟨⟨.lbu, 0x00004003#32, 0x0000707F#32⟩, by decide, rfl, by rw [and_functMask, ho, h3]; rfl⟩
  case lhu ho h3 => exact ⟨⟨.lhu, 0x00005003#32, 0x0000707F#32⟩, by decide, rfl, by rw [and_functMask, ho, h3]; rfl⟩
  case sb ho h3 => exact ⟨⟨.sb, 0x00000023#32, 0x0000707F#32⟩, by decide, rfl, by rw [and_functMask, ho, h3]; rfl⟩
  case sh ho h3 => exact ⟨⟨.sh, 0x00001023#32, 0x0000707F#32⟩, by decide, rfl, by rw [and_functMask, ho, h3]; rfl⟩
  case sw ho h3 => exact ⟨⟨.sw, 0x00002023#32, 0x0000707F#32⟩, by decide, rfl, by rw [and_functMask, ho, h3]; rfl⟩
  case addi ho h3 => exact ⟨⟨.addi, 0x00000013#32, 0x0000707F#32⟩, by decide, rfl, by rw [and_functMask, ho, h3]; rfl⟩
  case slti ho h3 => exact ⟨⟨.slti, 0x00002013#32, 0x0000707F#32⟩, by decide, rfl, by rw [and_functMask, ho, h3]; rfl⟩
  case sltiu ho h3 => exact ⟨⟨.sltiu, 0x00003013#32, 0x0000707F#32⟩, by decide, rfl, by rw [and_functMask, ho, h3]; rfl⟩
  case xori ho h3 => exact ⟨⟨.xori, 0x00004013#32, 0x0000707F#32⟩, by decide, rfl, by rw [and_functMask, ho, h3]; rfl⟩
  case ori ho h3 => exact ⟨⟨.ori, 0x00006013#32, 0x0000707F#32⟩, by decide, rfl, by rw [and_functMask, ho, h3]; rfl⟩
  case andi ho h3 => exact ⟨⟨.andi, 0x00007013#32, 0x0000707F#32⟩, by decide, rfl, by rw [and_functMask, ho, h3]; rfl⟩
  case slli ho h3 h7 => exact ⟨⟨.slli, 0x00001013#32, 0xFE00707F#32⟩, by decide, rfl, by rw [and_fullMask, ho, h3, h7]; rfl⟩
  case srli ho h3 h7 => exact ⟨⟨.srli, 0x00005013#32, 0xFE00707F#32⟩, by decide, rfl, by rw [and_fullMask, ho, h3, h7]; rfl⟩
  case srai ho h3 h7 => exact ⟨⟨.srai, 0x40005013#32, 0xFE00707F#32⟩, by decide, rfl, by rw [and_fullMask, ho, h3, h7]; rfl⟩
  case add ho h3 h7 => exact ⟨⟨.add, 0x00000033#32, 0xFE00707F#32⟩, by decide, rfl, by rw [and_fullMask, ho, h3, h7]; rfl⟩
  case sub ho h3 h7 => exact ⟨⟨.sub, 0x40000033#32, 0xFE00707F#32⟩, by decide, rfl, by rw [and_fullMask, ho, h3, h7]; rfl⟩
  case sll ho h3 h7 => exact ⟨⟨.sll, 0x00001033#32, 0xFE00707F#32⟩, by decide, rfl, by rw [and_fullMask, ho, h3, h7]; rfl⟩
  case slt ho h3 h7 => exact ⟨⟨.slt, 0x00002033#32, 0xFE00707F#32⟩, by decide, rfl, by rw [and_fullMask, ho, h3, h7]; rfl⟩
  case sltu ho h3 h7 => exact ⟨⟨.sltu, 0x00003033#32, 0xFE00707F#32⟩, by decide, rfl, by rw [and_fullMask, ho, h3, h7]; rfl⟩
  case xor ho h3 h7 => exact ⟨⟨.xor, 0x00004033#32, 0xFE00707F#32⟩, by decide, rfl, by rw [and_fullMask, ho, h3, h7]; rfl⟩
  case srl ho h3 h7 => exact ⟨⟨.srl, 0x00005033#32, 0xFE00707F#32⟩, by decide, rfl, by rw [and_fullMask, ho, h3, h7]; rfl⟩
  case sra ho h3 h7 => exact ⟨⟨.sra, 0x40005033#32, 0xFE00707F#32⟩, by decide, rfl, by rw [and_fullMask, ho, h3, h7]; rfl⟩
  case or ho h3 h7 => exact ⟨⟨.or, 0x00006033#32, 0xFE00707F#32⟩, by decide, rfl, by rw [and_fullMask, ho, h3, h7]; rfl⟩
  case and ho h3 h7 => exact ⟨⟨.and, 0x00007033#32, 0xFE00707F#32⟩, by decide, rfl, by rw [and_fullMask, ho, h3, h7]; rfl⟩
  case mret hw => exact ⟨⟨.mret, 0x30200073#32, 0xFFFFFFFF#32⟩, by decide, rfl, by rw [hw]; rfl⟩

/-- An instruction whose fields the word has is not `invalid`. -/
theorem DecodesAs.mnemonic_ne {w : Word} {i : Instr} (h : DecodesAs w i) : i.mnemonic ≠ .invalid := by
  cases h <;> simp [Instr.mnemonic]

end Sys2Proof
end

