-- ==== Sys2Proof/Laws/PerInstr.lean ====
section
/-! SUPPORT. Laws stated of every instruction, one lemma per constructor.

`EncodedWordMatchesItsRow`: the encoder, written from the formats of 30_encoding.md rule R73, and the table of rule R81 agree
on every instruction with every operand. -/

namespace Sys2Proof.Laws.EncodedWordMatchesItsRow

/-- The word of a well-formed instruction matches the row of its name (R80, R81); `invalid` has no row (R83). -/
def Statement (i : Instr) : Prop :=
  i.wf = true → ∀ row ∈ opcodeTable, row.name = i.mnemonic → encode i &&& row.mask = row.pattern

/-- A word that has the fields of a row matches every row of that row's name, there being one. -/
theorem of_decodesAs {w : Word} {i : Instr} (h : DecodesAs w i) {name : Mnemonic} (hn : i.mnemonic = name) :
    ∀ row ∈ opcodeTable, row.name = name → w &&& row.mask = row.pattern := by
  intro row hr hrn
  obtain ⟨row', hr', hn', hm⟩ := h.exists_row_match
  rwa [opcodeTable_name_injective row hr row' hr' (by rw [hrn, hn', hn])]

theorem lui (rd : RegIdx) (imm20 : BitVec 20) : Statement (.lui rd imm20) :=
  fun _ => of_decodesAs (.lui (opcodeOf_encodeU _ _ _)) rfl

theorem auipc (rd : RegIdx) (imm20 : BitVec 20) : Statement (.auipc rd imm20) :=
  fun _ => of_decodesAs (.auipc (opcodeOf_encodeU _ _ _)) rfl

theorem jal (rd : RegIdx) (offset : BitVec 21) : Statement (.jal rd offset) :=
  fun _ => of_decodesAs (.jal (opcodeOf_encodeJ _ _ _)) rfl

theorem jalr (rd rs1 : RegIdx) (imm : BitVec 12) : Statement (.jalr rd rs1 imm) :=
  fun _ => of_decodesAs (.jalr (opcodeOf_encodeI _ _ _ _ _) (funct3Of_encodeI _ _ _ _ _)) rfl

theorem beq (rs1 rs2 : RegIdx) (offset : BitVec 13) : Statement (.beq rs1 rs2 offset) :=
  fun _ => of_decodesAs (.beq (opcodeOf_encodeB _ _ _ _ _) (funct3Of_encodeB _ _ _ _ _)) rfl

theorem bne (rs1 rs2 : RegIdx) (offset : BitVec 13) : Statement (.bne rs1 rs2 offset) :=
  fun _ => of_decodesAs (.bne (opcodeOf_encodeB _ _ _ _ _) (funct3Of_encodeB _ _ _ _ _)) rfl

theorem blt (rs1 rs2 : RegIdx) (offset : BitVec 13) : Statement (.blt rs1 rs2 offset) :=
  fun _ => of_decodesAs (.blt (opcodeOf_encodeB _ _ _ _ _) (funct3Of_encodeB _ _ _ _ _)) rfl

theorem bge (rs1 rs2 : RegIdx) (offset : BitVec 13) : Statement (.bge rs1 rs2 offset) :=
  fun _ => of_decodesAs (.bge (opcodeOf_encodeB _ _ _ _ _) (funct3Of_encodeB _ _ _ _ _)) rfl

theorem bltu (rs1 rs2 : RegIdx) (offset : BitVec 13) : Statement (.bltu rs1 rs2 offset) :=
  fun _ => of_decodesAs (.bltu (opcodeOf_encodeB _ _ _ _ _) (funct3Of_encodeB _ _ _ _ _)) rfl

theorem bgeu (rs1 rs2 : RegIdx) (offset : BitVec 13) : Statement (.bgeu rs1 rs2 offset) :=
  fun _ => of_decodesAs (.bgeu (opcodeOf_encodeB _ _ _ _ _) (funct3Of_encodeB _ _ _ _ _)) rfl

theorem lb (rd rs1 : RegIdx) (imm : BitVec 12) : Statement (.lb rd rs1 imm) :=
  fun _ => of_decodesAs (.lb (opcodeOf_encodeI _ _ _ _ _) (funct3Of_encodeI _ _ _ _ _)) rfl

theorem lh (rd rs1 : RegIdx) (imm : BitVec 12) : Statement (.lh rd rs1 imm) :=
  fun _ => of_decodesAs (.lh (opcodeOf_encodeI _ _ _ _ _) (funct3Of_encodeI _ _ _ _ _)) rfl

theorem lw (rd rs1 : RegIdx) (imm : BitVec 12) : Statement (.lw rd rs1 imm) :=
  fun _ => of_decodesAs (.lw (opcodeOf_encodeI _ _ _ _ _) (funct3Of_encodeI _ _ _ _ _)) rfl

theorem lbu (rd rs1 : RegIdx) (imm : BitVec 12) : Statement (.lbu rd rs1 imm) :=
  fun _ => of_decodesAs (.lbu (opcodeOf_encodeI _ _ _ _ _) (funct3Of_encodeI _ _ _ _ _)) rfl

theorem lhu (rd rs1 : RegIdx) (imm : BitVec 12) : Statement (.lhu rd rs1 imm) :=
  fun _ => of_decodesAs (.lhu (opcodeOf_encodeI _ _ _ _ _) (funct3Of_encodeI _ _ _ _ _)) rfl

theorem sb (rs2 rs1 : RegIdx) (imm : BitVec 12) : Statement (.sb rs2 rs1 imm) :=
  fun _ => of_decodesAs (.sb (opcodeOf_encodeS _ _ _ _ _) (funct3Of_encodeS _ _ _ _ _)) rfl

theorem sh (rs2 rs1 : RegIdx) (imm : BitVec 12) : Statement (.sh rs2 rs1 imm) :=
  fun _ => of_decodesAs (.sh (opcodeOf_encodeS _ _ _ _ _) (funct3Of_encodeS _ _ _ _ _)) rfl

theorem sw (rs2 rs1 : RegIdx) (imm : BitVec 12) : Statement (.sw rs2 rs1 imm) :=
  fun _ => of_decodesAs (.sw (opcodeOf_encodeS _ _ _ _ _) (funct3Of_encodeS _ _ _ _ _)) rfl

theorem addi (rd rs1 : RegIdx) (imm : BitVec 12) : Statement (.addi rd rs1 imm) :=
  fun _ => of_decodesAs (.addi (opcodeOf_encodeI _ _ _ _ _) (funct3Of_encodeI _ _ _ _ _)) rfl

theorem slti (rd rs1 : RegIdx) (imm : BitVec 12) : Statement (.slti rd rs1 imm) :=
  fun _ => of_decodesAs (.slti (opcodeOf_encodeI _ _ _ _ _) (funct3Of_encodeI _ _ _ _ _)) rfl

theorem sltiu (rd rs1 : RegIdx) (imm : BitVec 12) : Statement (.sltiu rd rs1 imm) :=
  fun _ => of_decodesAs (.sltiu (opcodeOf_encodeI _ _ _ _ _) (funct3Of_encodeI _ _ _ _ _)) rfl

theorem xori (rd rs1 : RegIdx) (imm : BitVec 12) : Statement (.xori rd rs1 imm) :=
  fun _ => of_decodesAs (.xori (opcodeOf_encodeI _ _ _ _ _) (funct3Of_encodeI _ _ _ _ _)) rfl

theorem ori (rd rs1 : RegIdx) (imm : BitVec 12) : Statement (.ori rd rs1 imm) :=
  fun _ => of_decodesAs (.ori (opcodeOf_encodeI _ _ _ _ _) (funct3Of_encodeI _ _ _ _ _)) rfl

theorem andi (rd rs1 : RegIdx) (imm : BitVec 12) : Statement (.andi rd rs1 imm) :=
  fun _ => of_decodesAs (.andi (opcodeOf_encodeI _ _ _ _ _) (funct3Of_encodeI _ _ _ _ _)) rfl

theorem slli (rd rs1 : RegIdx) (shamt : BitVec 5) : Statement (.slli rd rs1 shamt) :=
  fun _ => of_decodesAs (.slli (opcodeOf_encodeR _ _ _ _ _ _) (funct3Of_encodeR _ _ _ _ _ _) (funct7Of_encodeR _ _ _ _ _ _)) rfl

theorem srli (rd rs1 : RegIdx) (shamt : BitVec 5) : Statement (.srli rd rs1 shamt) :=
  fun _ => of_decodesAs (.srli (opcodeOf_encodeR _ _ _ _ _ _) (funct3Of_encodeR _ _ _ _ _ _) (funct7Of_encodeR _ _ _ _ _ _)) rfl

theorem srai (rd rs1 : RegIdx) (shamt : BitVec 5) : Statement (.srai rd rs1 shamt) :=
  fun _ => of_decodesAs (.srai (opcodeOf_encodeR _ _ _ _ _ _) (funct3Of_encodeR _ _ _ _ _ _) (funct7Of_encodeR _ _ _ _ _ _)) rfl

theorem add (rd rs1 rs2 : RegIdx) : Statement (.add rd rs1 rs2) :=
  fun _ => of_decodesAs (.add (opcodeOf_encodeR _ _ _ _ _ _) (funct3Of_encodeR _ _ _ _ _ _) (funct7Of_encodeR _ _ _ _ _ _)) rfl

theorem sub (rd rs1 rs2 : RegIdx) : Statement (.sub rd rs1 rs2) :=
  fun _ => of_decodesAs (.sub (opcodeOf_encodeR _ _ _ _ _ _) (funct3Of_encodeR _ _ _ _ _ _) (funct7Of_encodeR _ _ _ _ _ _)) rfl

theorem sll (rd rs1 rs2 : RegIdx) : Statement (.sll rd rs1 rs2) :=
  fun _ => of_decodesAs (.sll (opcodeOf_encodeR _ _ _ _ _ _) (funct3Of_encodeR _ _ _ _ _ _) (funct7Of_encodeR _ _ _ _ _ _)) rfl

theorem slt (rd rs1 rs2 : RegIdx) : Statement (.slt rd rs1 rs2) :=
  fun _ => of_decodesAs (.slt (opcodeOf_encodeR _ _ _ _ _ _) (funct3Of_encodeR _ _ _ _ _ _) (funct7Of_encodeR _ _ _ _ _ _)) rfl

theorem sltu (rd rs1 rs2 : RegIdx) : Statement (.sltu rd rs1 rs2) :=
  fun _ => of_decodesAs (.sltu (opcodeOf_encodeR _ _ _ _ _ _) (funct3Of_encodeR _ _ _ _ _ _) (funct7Of_encodeR _ _ _ _ _ _)) rfl

theorem xor (rd rs1 rs2 : RegIdx) : Statement (.xor rd rs1 rs2) :=
  fun _ => of_decodesAs (.xor (opcodeOf_encodeR _ _ _ _ _ _) (funct3Of_encodeR _ _ _ _ _ _) (funct7Of_encodeR _ _ _ _ _ _)) rfl

theorem srl (rd rs1 rs2 : RegIdx) : Statement (.srl rd rs1 rs2) :=
  fun _ => of_decodesAs (.srl (opcodeOf_encodeR _ _ _ _ _ _) (funct3Of_encodeR _ _ _ _ _ _) (funct7Of_encodeR _ _ _ _ _ _)) rfl

theorem sra (rd rs1 rs2 : RegIdx) : Statement (.sra rd rs1 rs2) :=
  fun _ => of_decodesAs (.sra (opcodeOf_encodeR _ _ _ _ _ _) (funct3Of_encodeR _ _ _ _ _ _) (funct7Of_encodeR _ _ _ _ _ _)) rfl

theorem or (rd rs1 rs2 : RegIdx) : Statement (.or rd rs1 rs2) :=
  fun _ => of_decodesAs (.or (opcodeOf_encodeR _ _ _ _ _ _) (funct3Of_encodeR _ _ _ _ _ _) (funct7Of_encodeR _ _ _ _ _ _)) rfl

theorem and (rd rs1 rs2 : RegIdx) : Statement (.and rd rs1 rs2) :=
  fun _ => of_decodesAs (.and (opcodeOf_encodeR _ _ _ _ _ _) (funct3Of_encodeR _ _ _ _ _ _) (funct7Of_encodeR _ _ _ _ _ _)) rfl

theorem mret : Statement .mret := fun _ => of_decodesAs (.mret rfl) rfl

theorem invalid (word : Word) : Statement (.invalid word) := fun _ row hr hn => absurd hn (no_invalid_row row hr)

end Sys2Proof.Laws.EncodedWordMatchesItsRow
end

