-- ==== Sys2Proof/Tests/Slice0.lean ====
section
/-! SUPPORT. The model's own tests. Expected values are the spec's: the words of 30_encoding.md rule R85's examples and of
95_test_vectors.md (ids A1.. L1.. T1.. Y1.. X1.. M1.. G1..), whose words follow rule R81 (log entry 6). The witnesses show for
each obligation with hypotheses a state and operands that meet them. -/

namespace Sys2Proof.Tests

open Sys2Proof Sys2Proof.Machine Sys2Proof.Statements

/-! ### Well-formedness: an ill-formed term for each check, refused -/

theorem test_wf_refuses_an_odd_branch_offset : (Instr.beq 1 2 3).wf = false := by decide
theorem test_wf_refuses_an_odd_jump_offset : (Instr.jal 0 101).wf = false := by decide
theorem test_wf_refuses_invalid_of_an_addi_word : (Instr.invalid 0x00500093).wf = false := by decide
theorem test_wf_accepts_even_offsets_and_an_unmatched_word :
    (Instr.bgeu 1 2 (-4096)).wf = true ∧ (Instr.jal 0 (-1048576)).wf = true ∧ (Instr.invalid 0x00000073).wf = true := by
  decide

/-! ### Decoding: words written out from 30_encoding.md rules R73 and R81 -/

/-- A1, fields imm[31:12], rd, opcode; A3. -/
theorem test_decode_lui :
    decode 0b11111111111111111111_00101_0110111 = .lui 5 0xFFFFF ∧
    decode 0x00001317 = .auipc 6 1 := by
  decide

/-- P2, fields imm[20], imm[10:1], imm[11], imm[19:12], rd, opcode; B4; B5. -/
theorem test_decode_jal :
    decode 0b0_0000110010_0_00000000_00000_1101111 = .jal 0 100 ∧
    decode 0x800000EF = .jal 1 (-1048576) ∧
    decode 0x7FFFF06F = .jal 0 1048574 := by
  decide

/-- P3, fields imm[12], imm[10:5], rs2, rs1, funct3, imm[4:1], imm[11], opcode; B13; B14; B19; B20; B21; B22. -/
theorem test_decode_branches :
    decode 0b1_111111_00000_00010_001_1100_1_1100011 = .bne 2 0 (-8) ∧
    decode 0x80000063 = .beq 0 0 (-4096) ∧
    decode 0x7E000FE3 = .beq 0 0 4094 ∧
    decode 0x0020C663 = .blt 1 2 12 ∧
    decode 0x0020D663 = .bge 1 2 12 ∧
    decode 0x0020E663 = .bltu 1 2 12 ∧
    decode 0x0020F663 = .bgeu 1 2 12 := by
  decide

/-- L11, fields imm[11:0], rs1, funct3, rd, opcode; L1; L5; L3; L7; B11. -/
theorem test_decode_loads :
    decode 0b111111111100_00001_010_00010_0000011 = .lw 2 1 (-4) ∧
    decode 0x00008103 = .lb 2 1 0 ∧
    decode 0x00009103 = .lh 2 1 0 ∧
    decode 0x0000C103 = .lbu 2 1 0 ∧
    decode 0x0000D103 = .lhu 2 1 0 ∧
    decode 0x007100E7 = .jalr 1 2 7 := by
  decide

/-- T7, fields imm[11:5], rs2, rs1, funct3, imm[4:0], opcode; T4; T5. -/
theorem test_decode_stores :
    decode 0b0111111_00010_00001_010_11111_0100011 = .sw 2 1 2047 ∧
    decode 0x002081A3 = .sb 2 1 3 ∧
    decode 0x002090A3 = .sh 2 1 1 := by
  decide

/-- A5, fields imm[11:0], rs1, funct3, rd, opcode; A7; A9; A12; A13; A14; A17; A18. -/
theorem test_decode_immediates :
    decode 0b111111111111_00001_000_00010_0010011 = .addi 2 1 (-1) ∧
    decode 0xFFF0A193 = .slti 3 1 (-1) ∧
    decode 0xFFF0B193 = .sltiu 3 1 (-1) ∧
    decode 0xFFF0C193 = .xori 3 1 (-1) ∧
    decode 0x0F00E193 = .ori 3 1 0xF0 ∧
    decode 0x0FF0F193 = .andi 3 1 0xFF ∧
    decode 0x01F09193 = .slli 3 1 31 ∧
    decode 0x0040D193 = .srli 3 1 4 := by
  decide

/-- A23, fields funct7, rs2, rs1, funct3, rd, opcode; A20, shamt in the place of rs2; A27; A29; A30; A31; A32; A33; A34; A35; A36. -/
theorem test_decode_registers :
    decode 0b0100000_00010_00001_000_00011_0110011 = .sub 3 1 2 ∧
    decode 0b0100000_11111_00001_101_00011_0010011 = .srai 3 1 31 ∧
    decode 0x002081B3 = .add 3 1 2 ∧
    decode 0x002091B3 = .sll 3 1 2 ∧
    decode 0x0020A1B3 = .slt 3 1 2 ∧
    decode 0x0020B1B3 = .sltu 3 1 2 ∧
    decode 0x0020C1B3 = .xor 3 1 2 ∧
    decode 0x0020D1B3 = .srl 3 1 2 ∧
    decode 0x4020D1B3 = .sra 3 1 2 ∧
    decode 0x0020E1B3 = .or 3 1 2 ∧
    decode 0x0020F1B3 = .and 3 1 2 := by
  decide

/-- Y1, all 32 bits; ebreak. -/
theorem test_decode_system :
    decode 0b0011000_00010_00000_000_00000_1110011 = .mret ∧
    decode 0x00100073 = .invalid 0x00100073 := by
  decide

theorem test_decodeTableWord :
    decodeTableWord 32 0x00308113 = some (.addi 2 1 3) ∧ decodeTableWord 32 0 = some (.invalid 0) ∧
    decodeTableWord 16 0x00308113 = some (.addi 2 1 0) ∧ decodeTableWord 40 0x13 = none := by
  decide

theorem test_decodeBytes_refuses_three_bytes : decodeBytes [0x13, 0x81, 0x30] = .error (.truncated 3) := by decide

/-! ### Steps -/

/-- `REF` with `x1`, `x2`, the other registers 0, `pc`, some bytes of memory, and the word at `pc`. -/
def small (pc : Nat) (x1 x2 : Word) (bytes : Memory) (word : Nat) : State :=
  ({ State.reset with
      pc := BitVec.ofNat 32 pc
      regs := x1 :: x2 :: List.replicate 29 0#32
      devices := [⟨0, 0x10000, .memory bytes⟩] }).withFetchWord 32 word

/-- The state after one step. -/
def after (s : State) : Option State :=
  match step s with
  | .next t => some t
  | .fault _ => none
  | .refused _ => none

/-- `x3` and `pc` after one step of a word at `pc = 0`. -/
def x3After (word : Nat) (x1 x2 : Word) : Option (Word × Word) := (after (small 0 x1 x2 [] word)).map fun t => (t.getX 3, t.pc)

/-- `x2` and `pc` after one step of a word at `pc = 0x40`, with the bytes of 95_test_vectors.md section 2.3. -/
def loadAfter (word : Nat) (x1 : Word) : Option (Word × Word) :=
  (after (small 0x40 x1 0x55 [(0x200, 0x80), (0x201, 0xFF), (0x202, 0x34), (0x203, 0x92)] word)).map
    fun t => (t.getX 2, t.pc)

/-- The four bytes from an address after one step of a word at `pc = 0x40`, with `x2 = 0xA1B2C3D4`, and `bus.error`. -/
def storeAfter (word : Nat) (x1 : Word) (address : Nat) : Option (List (List (Option Byte)) × Bool) :=
  (after (small 0x40 x1 0xA1B2C3D4 [] word)).map
    fun t => ([t.bytesAt address, t.bytesAt (address + 1), t.bytesAt (address + 2), t.bytesAt (address + 3)], t.busError)

/-- `pc` and `x1` after one step. -/
def jumpAfter (pc : Nat) (word : Nat) (x1 x2 : Word) : Option (Word × Word) :=
  (after (small pc x1 x2 [] word)).map fun t => (t.pc, t.getX 1)

/-- A peripheral whose interrupt line is high. -/
def highLine : Device := ⟨0x20000, 4, .peripheral 0 ⟨0, true⟩⟩

/-- The state with that peripheral. -/
def State.withHighLine (s : State) : State := s.addDevice highLine

/-- `pc`, `mepc`, `irqState` and `x1` after one step with the line high. -/
def irqAfter (s : State) : Option (Word × Word × Bool × Word) :=
  (after (State.withHighLine s)).map fun t => (t.pc, t.mepc, t.irqState, t.getX 1)

/-- A27. -/
theorem test_add : x3After 0x002081B3 0x80000001 33 = some (0x80000022, 4) ∧ x3After 0x002081B3 0xFFFFFFFF 1 = some (0, 4) := by
  decide
/-- A28. -/
theorem test_sub : x3After 0x402081B3 0x80000001 33 = some (0x7FFFFFE0, 4) ∧ x3After 0x402081B3 0xFFFFFFFF 1 = some (0xFFFFFFFE, 4) := by
  decide
/-- A29. -/
theorem test_sll : x3After 0x002091B3 0x80000001 33 = some (2, 4) ∧ x3After 0x002091B3 0xFFFFFFFF 1 = some (0xFFFFFFFE, 4) := by
  decide
/-- A30. -/
theorem test_slt : x3After 0x0020A1B3 0x80000001 33 = some (1, 4) ∧ x3After 0x0020A1B3 0xFFFFFFFF 1 = some (1, 4) := by
  decide
/-- A31. -/
theorem test_sltu : x3After 0x0020B1B3 0x80000001 33 = some (0, 4) ∧ x3After 0x0020B1B3 0xFFFFFFFF 1 = some (0, 4) := by
  decide
/-- A32. -/
theorem test_xor : x3After 0x0020C1B3 0x80000001 33 = some (0x80000020, 4) ∧ x3After 0x0020C1B3 0xFFFFFFFF 1 = some (0xFFFFFFFE, 4) := by
  decide
/-- A33. -/
theorem test_srl : x3After 0x0020D1B3 0x80000001 33 = some (0x40000000, 4) ∧ x3After 0x0020D1B3 0xFFFFFFFF 1 = some (0x7FFFFFFF, 4) := by
  decide
/-- A34. -/
theorem test_sra : x3After 0x4020D1B3 0x80000001 33 = some (0xC0000000, 4) ∧ x3After 0x4020D1B3 0xFFFFFFFF 1 = some (0xFFFFFFFF, 4) := by
  decide
/-- A35. -/
theorem test_or : x3After 0x0020E1B3 0x80000001 33 = some (0x80000021, 4) ∧ x3After 0x0020E1B3 0xFFFFFFFF 1 = some (0xFFFFFFFF, 4) := by
  decide
/-- A36. -/
theorem test_and : x3After 0x0020F1B3 0x80000001 33 = some (1, 4) ∧ x3After 0x0020F1B3 0xFFFFFFFF 1 = some (1, 4) := by
  decide
/-- A7. -/
theorem test_slti : x3After 0xFFF0A193 0xFFFFFFFE 0 = some (1, 4) := by decide
/-- A9, A11. -/
theorem test_sltiu : x3After 0xFFF0B193 5 0 = some (1, 4) ∧ x3After 0x0010B193 1 0 = some (0, 4) := by decide
/-- A12. -/
theorem test_xori : x3After 0xFFF0C193 0x12345678 0 = some (0xEDCBA987, 4) := by decide
/-- A13. -/
theorem test_ori : x3After 0x0F00E193 0x0F 0 = some (0xFF, 4) := by decide
/-- A15. -/
theorem test_andi : x3After 0xFF00F193 0x12345678 0 = some (0x12345670, 4) := by decide
/-- A17. -/
theorem test_slli : x3After 0x01F09193 3 0 = some (0x80000000, 4) := by decide
/-- A18. -/
theorem test_srli : x3After 0x0040D193 0x87654321 0 = some (0x08765432, 4) := by decide
/-- A19, A21. -/
theorem test_srai : x3After 0x4040D193 0x87654321 0 = some (0xF8765432, 4) ∧ x3After 0x41F0D193 0x7FFFFFFF 0 = some (0, 4) := by decide
/-- A5 and S1: a wrap to all ones; a write to `x0` is discarded. -/
theorem test_addi : (after (small 0 0 7 [] 0xFFF08113)).map (fun t => t.getX 2) = some 0xFFFFFFFF ∧
    (after (small 0 1 2 [] 0x00500013)).map (fun t => (t.getX 0, t.regs)) = some (0, (small 0 1 2 [] 0).regs) := by
  decide
/-- A1. -/
theorem test_lui : (after (small 0 0 0 [] 0xFFFFF2B7)).map (fun t => t.getX 5) = some 0xFFFFF000 := by decide
/-- A4. -/
theorem test_auipc : (after (small 0x100 0 0 [] 0xFFFFF317)).map (fun t => (t.getX 6, t.pc)) = some (0xFFFFF100, 0x104) := by
  decide
/-- B1, B4, B5: forwards, the most negative offset, and bit 1 of the target dropped. -/
theorem test_jal : jumpAfter 0x20 0x008000EF 0 0 = some (0x28, 0x24) ∧ jumpAfter 0 0x800000EF 0 0 = some (0xFFF00000, 4) ∧
    jumpAfter 0 0x7FFFF06F 9 0 = some (0x000FFFFC, 9) := by decide
/-- B9, B11: the old `x1` is the target; bits 1:0 are dropped. -/
theorem test_jalr : jumpAfter 0x10 0x000080E7 0x80 0 = some (0x80, 0x14) ∧
    jumpAfter 0x10 0x007100E7 0 0x100 = some (0x104, 0x14) := by decide
/-- B17: four operand pairs. -/
theorem test_beq :
    jumpAfter 0x40 0x00208863 5 5 = some (0x50, 5) ∧
    jumpAfter 0x40 0x00208863 0xFFFFFFFF 1 = some (0x44, 0xFFFFFFFF) ∧
    jumpAfter 0x40 0x00208863 1 0xFFFFFFFF = some (0x44, 1) ∧
    jumpAfter 0x40 0x00208863 0x80000000 0x7FFFFFFF = some (0x44, 0x80000000) := by
  decide
/-- B18: four operand pairs. -/
theorem test_bne :
    jumpAfter 0x40 0xFE209CE3 5 5 = some (0x44, 5) ∧
    jumpAfter 0x40 0xFE209CE3 0xFFFFFFFF 1 = some (0x38, 0xFFFFFFFF) ∧
    jumpAfter 0x40 0xFE209CE3 1 0xFFFFFFFF = some (0x38, 1) ∧
    jumpAfter 0x40 0xFE209CE3 0x80000000 0x7FFFFFFF = some (0x38, 0x80000000) := by
  decide
/-- B19: four operand pairs. -/
theorem test_blt :
    jumpAfter 0x40 0x0020C663 5 5 = some (0x44, 5) ∧
    jumpAfter 0x40 0x0020C663 0xFFFFFFFF 1 = some (0x4C, 0xFFFFFFFF) ∧
    jumpAfter 0x40 0x0020C663 1 0xFFFFFFFF = some (0x44, 1) ∧
    jumpAfter 0x40 0x0020C663 0x80000000 0x7FFFFFFF = some (0x4C, 0x80000000) := by
  decide
/-- B20: four operand pairs. -/
theorem test_bge :
    jumpAfter 0x40 0x0020D663 5 5 = some (0x4C, 5) ∧
    jumpAfter 0x40 0x0020D663 0xFFFFFFFF 1 = some (0x44, 0xFFFFFFFF) ∧
    jumpAfter 0x40 0x0020D663 1 0xFFFFFFFF = some (0x4C, 1) ∧
    jumpAfter 0x40 0x0020D663 0x80000000 0x7FFFFFFF = some (0x44, 0x80000000) := by
  decide
/-- B21: four operand pairs. -/
theorem test_bltu :
    jumpAfter 0x40 0x0020E663 5 5 = some (0x44, 5) ∧
    jumpAfter 0x40 0x0020E663 0xFFFFFFFF 1 = some (0x44, 0xFFFFFFFF) ∧
    jumpAfter 0x40 0x0020E663 1 0xFFFFFFFF = some (0x4C, 1) ∧
    jumpAfter 0x40 0x0020E663 0x80000000 0x7FFFFFFF = some (0x44, 0x80000000) := by
  decide
/-- B22: four operand pairs. -/
theorem test_bgeu :
    jumpAfter 0x40 0x0020F663 5 5 = some (0x4C, 5) ∧
    jumpAfter 0x40 0x0020F663 0xFFFFFFFF 1 = some (0x4C, 0xFFFFFFFF) ∧
    jumpAfter 0x40 0x0020F663 1 0xFFFFFFFF = some (0x44, 1) ∧
    jumpAfter 0x40 0x0020F663 0x80000000 0x7FFFFFFF = some (0x4C, 0x80000000) := by
  decide
/-- L1, L18: a byte; an address past every device. -/
theorem test_lb : loadAfter 0x00008103 0x200 = some (0xFFFFFF80, 0x44) ∧
    loadAfter 0x00008103 0xFFFFFFFF = some (0, 0x44) := by decide
/-- L4. -/
theorem test_lbu : loadAfter 0x0000C103 0x201 = some (0xFF, 0x44) := by decide
/-- L5, L6. -/
theorem test_lh : loadAfter 0x00009103 0x200 = some (0xFFFFFF80, 0x44) ∧
    loadAfter 0x00009103 0x201 = some (0x34FF, 0x44) := by decide
/-- L7. -/
theorem test_lhu : loadAfter 0x0000D103 0x200 = some (0xFF80, 0x44) := by decide
/-- L10, L11, L15. -/
theorem test_lw : loadAfter 0x0000A103 0x201 = some (0x009234FF, 0x44) ∧
    loadAfter 0xFFC0A103 0x204 = some (0x9234FF80, 0x44) ∧
    loadAfter 0x0000A103 0xFFFE = some (0, 0x44) := by decide
/-- T4. -/
theorem test_sb : storeAfter 0x002081A3 0x200 0x200 = some ([[some 0], [some 0], [some 0], [some 0xD4]], false) := by decide
/-- T5. -/
theorem test_sh : storeAfter 0x002090A3 0x200 0x200 = some ([[some 0], [some 0xD4], [some 0xC3], [some 0]], false) := by decide
/-- T3, T8: little-endian; a store that straddles the end of the device writes nothing. -/
theorem test_sw : storeAfter 0x0020A023 0x200 0x200 = some ([[some 0xD4], [some 0xC3], [some 0xB2], [some 0xA1]], false) ∧
    storeAfter 0x0020A023 0xFFFE 0xFFFC = some ([[some 0], [some 0], [some 0], [some 0]], true) := by decide
/-- Y1, Y5: the return, with the low two bits of `mepc` dropped on the way. -/
theorem test_mret :
    (after { small 8 0 0 [] 0x30200073 with irqState := true, mepc := 0x13 }).map (fun t => (t.pc, t.mepc, t.irqState)) =
      some (0x10, 0x13, false) := by decide
/-- Y3, Y4: with the line high, entry wins outside the handler and the return wins inside it. -/
theorem test_mret_with_the_line_high :
    irqAfter { small 8 1 0 [] 0x30200073 with mepc := 0x20 } = some (4, 0x0C, true, 1) ∧
    irqAfter { small 8 1 0 [] 0x30200073 with irqState := true, mepc := 0x20 } = some (0x20, 0x20, false, 1) := by decide
/-- Y6 and `csrrw x1, mepc, x2`: nothing but the advance of `pc`. -/
theorem test_invalid : jumpAfter 0x40 0 7 9 = some (0x44, 7) ∧ jumpAfter 0x40 0x341110F3 7 9 = some (0x44, 7) := by decide
/-- X1, X2: entry, and no entry inside the handler. -/
theorem test_interrupt :
    irqAfter (small 0x40 0 0 [] 0x00508093) = some (4, 0x44, true, 5) ∧
    irqAfter { small 0x40 0 0 [] 0x00508093 with irqState := true, mepc := 0x99 } = some (0x44, 0x99, true, 5) := by decide
/-- X3, X6: a jump is interrupted after it: its link is written and `mepc` is its target, unmasked. -/
theorem test_interrupted_jumps :
    irqAfter (small 0x20 0 0 [] 0x008000EF) = some (4, 0x28, true, 0x24) ∧
    irqAfter (small 0x10 0 0x100 [] 0x007100E7) = some (4, 0x107, true, 0x14) := by decide
/-- X8, X10: a fetch no device answers, and the wrap of `pc`. -/
theorem test_failed_fetch :
    (after { State.reset with pc := 0x10000 }).map
      (fun t => (t.pc, t.busError, t.trace.map fun tr => (tr.fetchError, tr.instr.name))) =
      some (0x10004, true, some (true, .invalid)) ∧
    (after { State.reset with pc := 0xFFFFFFFC }).map (fun t => (t.pc, t.trace.map fun tr => tr.incPc)) =
      some (0, some 0) := by decide
/-- A20: operand B of `srai` in the trace is `0x400 + shamt`; A1: operand A of `lui` is `pc`. -/
theorem test_trace_operands :
    (after (small 0 0x80000000 0 [] 0x41F0D193)).bind (fun t => t.trace.map fun tr => (tr.a, tr.b, tr.r)) =
      some (0x80000000, 0x41F, 0xFFFFFFFF) ∧
    (after (small 0x100 0 0 [] 0xFFFFF2B7)).bind (fun t => t.trace.map fun tr => (tr.a, tr.b, tr.r)) =
      some (0x100, 0xFFFFF000, 0xFFFFF000) := by decide

/-! ### Bus, register file, reset -/

/-- The platform of M7 to M11: two memories that overlap in `0x1080 .. 0x10FF`. -/
def overlapping : State := { State.reset with devices := [⟨0x1000, 0x100, .memory []⟩, ⟨0x1080, 0x100, .memory []⟩] }

/-- M1, M2: little-endian bytes of a word. -/
theorem test_bytes_of_a_word :
    let s := State.reset.busWrite 0x100 .word 0x12345678
    (s.busRead 0x100 .byte false).1 = 0x78 ∧ (s.busRead 0x103 .byte false).1 = 0x12 ∧
    (s.busRead 0x102 .half true).1 = 0x1234 ∧ (s.busRead 0x101 .word false).1 = 0x00123456 := by decide
/-- M7 to M10: a write reaches both devices, a read the first. -/
theorem test_overlapping_devices :
    (overlapping.busWrite 0x1080 .word 0xAABBCCDD).bytesAt 0x1080 = [some 0xDD, some 0xDD] ∧
    ((overlapping.busWrite 0x10FE .word 0x11223344).busRead 0x10FE .half false).1 = 0 ∧
    ((overlapping.busWrite 0x10FE .word 0x11223344).busRead 0x10FE .word false).1 = 0x11223344 := by decide
/-- M4: the last byte of a device, and one past it. -/
theorem test_device_boundary :
    (State.reset.busRead 0xFFFF .byte false).2.busError = false ∧ (State.reset.busRead 0xFFFF .half false).2.busError = true ∧
    (State.reset.busRead 0x10000 .byte false).2.busError = true := by decide
/-- M5: a failed write is reported, and the report goes with the next access. -/
theorem test_bus_error_is_one_shot :
    (State.reset.busWrite 0x20000 .word 1).busError = true ∧
    ((State.reset.busWrite 0x20000 .word 1).busRead 0 .word false).2.busError = false := by decide
/-- G2, G3, S2: discarded writes, the mask of `pc`, and a file of 16 registers. -/
theorem test_register_file :
    (State.reset.setX 32 1) = State.reset ∧ (State.reset.setX 0 1) = State.reset ∧ (State.reset.setPc 0x107).pc = 0x104 ∧
    (State.powerOn 16 refPlatform).setX 20 7 = State.powerOn 16 refPlatform := by decide
/-- G4: core reset keeps memory and `bus.error`. -/
theorem test_core_reset :
    let s := { small 0x44 7 0 [] 0x00500093 with mepc := 0x30, busError := true }
    s.coreReset.getX 1 = 0 ∧ s.coreReset.pc = 0 ∧ s.coreReset.mepc = 0 ∧ s.coreReset.busError = true ∧
    s.coreReset.devices = s.devices := by decide
/-- R114: the host's policy stops after a step that reported an error, which the machine itself survived. -/
theorem test_watchedStep :
    watchedStep { State.reset with pc := 0x10000 } = .fault (.fetchError 0x10000) ∧
    watchedStep (small 0x40 0x10000 0 [] 0x0000A103) = .fault (.loadStoreError 0x10000) := ⟨rfl, rfl⟩

/-! ### Witnesses: each obligation with hypotheses has a state and operands that meet them -/

/-- A test of the next state of a step, as a statement about `step`. -/
theorem next_of_after {s : State} {p : State → Bool} (h : (after s).map p = some true) :
    ∃ t, step s = .next t ∧ p t = true := by
  unfold after at h
  split at h
  · rename_i t ht
    exact ⟨t, ht, by simpa using h⟩
  · simp at h
  · simp at h

/-- The memory of `REF`, empty. -/
def refMemory : Device := Device.newMemory 0 0x10000

theorem witness_DecodingAnEncodedInstructionGivesItBack :
    (Instr.lui 31 0xFFFFF).wf = true ∧ (Instr.jal 31 0xFFFFE).wf = true ∧ (Instr.beq 31 31 (-4096)).wf = true ∧
    (Instr.bgeu 0 31 4094).wf = true ∧ (Instr.invalid 0xFFFFFFFF).wf = true := by decide

theorem witness_WordMatchesARowIffItDecodesToIt :
    (⟨.mret, 0x30200073, 0xFFFFFFFF⟩ : OpcodeRow) ∈ opcodeTable ∧ 0x30200073#32 &&& 0xFFFFFFFF#32 = 0x30200073#32 ∧
    0x302000F3#32 &&& 0xFFFFFFFF#32 ≠ 0x30200073#32 := by decide

theorem witness_NoWordMatchesTwoRows :
    (⟨.srai, 0x40005013, 0xFE00707F⟩ : OpcodeRow) ∈ opcodeTable ∧ 0x41F0D193#32 &&& 0xFE00707F#32 = 0x40005013#32 := by
  decide

theorem witness_UnmatchedWordIsTheInvalidRecord :
    decode 0x00000000 = .invalid 0x00000000 ∧ ∀ row ∈ opcodeTable, 0x00000000#32 &&& row.mask ≠ row.pattern := by decide

/-- One word for each list of names. -/
theorem witness_RecordHoldsTheFieldsOfTheWord :
    (decodeRecord 0x41F0D193).name = .srai ∧ (decodeRecord 0x7E20AFA3).name = .sw ∧ (decodeRecord 0x80000063).name = .beq ∧
    (decodeRecord 0xFFFFF2B7).name = .lui ∧ (decodeRecord 0x800000EF).name = .jal ∧
    (decodeRecord 0x402081B3).name = .sub := by decide

/-- Indices 0, 32 and 31 of a file of 32 registers. -/
theorem witness_RegisterFileReadAfterWrite :
    State.reset.registerCount ≤ 32 ∧ (31 : Nat) ≠ 0 ∧ 31 < State.reset.registerCount := by decide

theorem witness_ProgramCounterIsAMultipleOfFour : ∃ t, step State.reset = .next t ∧ (t.pc == 4) = true :=
  next_of_after (by decide)

theorem witness_ComparisonsGiveOneOrZero :
    (0xFFFFFFFF#32).toInt < (1#32).toInt ∧ (1#32).toInt ≤ (1#32).toInt ∧ (1#32).toNat < (0xFFFFFFFF#32).toNat ∧
    (1#32).toNat ≤ (1#32).toNat := by decide

/-- On `REF` the one memory answers what it accepts. -/
theorem memory_answers (s : State) (hs : s.devices = refPlatform) (address : Word) (w : Width)
    (h : refMemory.accepts address.toNat w = true) : AnsweredByMemory s address w refMemory [] :=
  ⟨[], [], hs, by simp, h, rfl⟩

theorem witness_StepRunsTheDecodedInstruction :
    (∃ word bus i, State.reset.busRead State.reset.pc .word false = (word, bus) ∧ decode word = i) ∧
    AnsweredByMemory State.reset State.reset.pc .word refMemory [] ∧
    decodeBytes [Memory.byte [] 0, Memory.byte [] 1, Memory.byte [] 2, Memory.byte [] 3] = .ok (.invalid 0, []) :=
  ⟨⟨_, _, _, rfl, rfl⟩, memory_answers _ rfl _ _ (by decide), by decide⟩

/-- Accesses of 1, 2 and 4 bytes at the first address at which no device of `REF` accepts them. -/
theorem nothing_accepts :
    NoDeviceAccepts State.reset 0x10000 .byte ∧ NoDeviceAccepts State.reset 0xFFFF .half ∧
    NoDeviceAccepts State.reset 0xFFFD .word ∧ ¬NoDeviceAccepts State.reset 0xFFFC .word := by
  unfold NoDeviceAccepts; decide

theorem witness_StepSamplesThenFetches :
    NoDeviceAccepts { State.reset with pc := 0x10000 } 0x10000 .word ∧ ¬NoDeviceAccepts State.reset State.reset.pc .word := by
  unfold NoDeviceAccepts; decide

theorem witness_LoadStoreErrorIsTheErrorOfTheAccess :
    (Instr.lb 1 2 0).record.tags.wbMem ∈ [WbMem.lb, .lh, .lw, .lbu, .lhu, .sb, .sh, .sw] ∧
    Instr.mret.record.tags.wbMem ∈ [WbMem.r, .pcPlus, .none] := by decide

theorem witness_TraceShowsTheValuesOfTheStep :
    (Instr.sb 1 2 0).record.tags.wbMem ∉ [WbMem.lb, .lh, .lw, .lbu, .lhu] := by decide

theorem witness_FailedFetchOnlyAdvances : NoDeviceAccepts { State.reset with pc := 0xFFFFFFFC } 0xFFFFFFFC .word := by
  unfold NoDeviceAccepts; decide

theorem witness_HighLineEntersTheHandler :
    (∃ d ∈ (State.withHighLine State.reset).devices, d.irq = true) ∧ (State.withHighLine State.reset).irqState = false := by
  decide

theorem witness_HandlerIsNotReentered : { State.withHighLine State.reset with irqState := true }.irqState = true := rfl

theorem witness_OnlyEntryAndMretChangeTheHandlerState :
    (∃ t, step (State.withHighLine State.reset) = .next t ∧ (!State.reset.irqState && t.irqState) = true) ∧
    (∃ t, step { small 8 0 0 [] 0x30200073 with irqState := true } = .next t ∧ (!t.irqState) = true) ∧
    hostStep .coreReset State.reset = .next State.reset.coreReset :=
  ⟨next_of_after (by decide), next_of_after (by decide), rfl⟩

/-- Loads of the last byte, halfword and word of `REF`'s memory, at the address in `x1`. -/
theorem witness_LoadsFromMemoryExtendItsBytes :
    AnsweredByMemory (State.reset.setX 1 0xFFFF) ((State.reset.setX 1 0xFFFF).effectiveAddress 1 0) .byte refMemory [] ∧
    AnsweredByMemory (State.reset.setX 1 0xFFFE) ((State.reset.setX 1 0xFFFE).effectiveAddress 1 0) .half refMemory [] ∧
    AnsweredByMemory (State.reset.setX 1 0xFFFC) ((State.reset.setX 1 0xFFFC).effectiveAddress 1 0) .word refMemory [] :=
  ⟨memory_answers _ rfl _ _ (by decide), memory_answers _ rfl _ _ (by decide), memory_answers _ rfl _ _ (by decide)⟩

/-- A store that one of two overlapping memories accepts and the other does not. -/
theorem witness_StoresReachEveryAcceptingMemory :
    overlapping.Inv ∧ Device.accepts ⟨0x1000, 0x100, .memory []⟩ 0x10FE .word = false ∧
    Device.accepts ⟨0x1080, 0x100, .memory []⟩ 0x10FE .word = true ∧
    overlapping.devices[1]? = some ⟨0x1080, 0x100, .memory []⟩ := by decide

/-- `x1` holds the first address at which a byte, a halfword, a word is not accepted. -/
theorem witness_FailedAccessesOnlyReport :
    NoDeviceAccepts (State.reset.setX 1 0x10000) ((State.reset.setX 1 0x10000).effectiveAddress 1 0) .byte ∧
    NoDeviceAccepts (State.reset.setX 1 0xFFFF) ((State.reset.setX 1 0xFFFF).effectiveAddress 1 0) .half ∧
    NoDeviceAccepts (State.reset.setX 1 0xFFFD) ((State.reset.setX 1 0xFFFD).effectiveAddress 1 0) .word := by
  unfold NoDeviceAccepts; decide

theorem witness_MretReturnsUnlessAnInterruptEnters :
    ({ State.reset with irqSample := true }.irqSample = true ∧ State.reset.irqState = false) ∧ State.reset.irqSample = false ∧
    { State.reset with irqState := true }.irqState = true := by decide

theorem witness_BusReadGoesToTheFirstAcceptingDevice :
    NoDeviceAccepts overlapping 0x0FFF .half ∧
    overlapping.devices = [⟨0x1000, 0x100, .memory []⟩] ++ ⟨0x1080, 0x100, .memory []⟩ :: [] ∧
    (∀ e ∈ [(⟨0x1000, 0x100, .memory []⟩ : Device)], e.accepts 0x10FE .word = false) := by
  unfold NoDeviceAccepts; decide

theorem witness_BusWriteGoesToEveryAcceptingDevice :
    NoDeviceAccepts overlapping 0x1180 .byte ∧ ¬NoDeviceAccepts overlapping 0x117F .byte := by
  unfold NoDeviceAccepts; decide

theorem witness_AccessNeedsADeviceThatHoldsAllItsBytes :
    State.reset.Inv ∧ 2 ^ 32 < (0xFFFFFFFD#32).toNat + 4 ∧ (Width.word, 4) ∈ [(Width.byte, 1), (.half, 2), (.word, 4)] := by
  decide

theorem witness_BusErrorIsTheOutcomeOfTheLastAccess :
    hostStep .busReset State.reset = .next State.reset.busReset ∧ (∀ a n sg, HostOp.busReset ≠ .busRead a n sg) ∧
    (∀ a n v, HostOp.busReset ≠ .busWrite a n v) :=
  ⟨rfl, by simp, by simp⟩

/-- The last halfword of a memory of six bytes. -/
theorem witness_FlatMemoryIsLittleEndianBytes :
    (Width.half, 2) ∈ [(Width.byte, 1), (.half, 2), (.word, 4)] ∧ Memory.wf 6 [(0, 1), (5, 0xFF)] = true ∧ 4 + 2 ≤ 6 := by
  decide

/-- The last word of `REF`'s memory, its upper half, and `pc` there. -/
theorem witness_WrittenWordIsReadInPartsAndFetched :
    { State.reset with pc := 0xFFFC }.Inv ∧ AnsweredByMemory State.reset 0xFFFC .word refMemory [] ∧
    (∀ e ∈ State.reset.devices, e.accepts ((0xFFFC#32).toNat + 2) .half = e.accepts (0xFFFC#32).toNat .word) ∧ 2 + 2 ≤ 4 :=
  ⟨by decide, memory_answers _ rfl _ _ (by decide), by decide, by decide⟩

theorem witness_TheLineIsTheOrOfTheDevices :
    { State.reset with devices := [] }.devices = [] ∧ (∃ d ∈ (State.withHighLine State.reset).devices, d.irq = true) := by
  decide

/-- The last byte of the address space, an empty device, one byte too many, and sizes beside 1, 2 and 4. -/
theorem witness_HostOperationsAreCheckedForRangeAndSize :
    (1 ≤ 1 ∧ (0xFFFFFFFF#32).toNat + 1 ≤ 2 ^ 32) ∧ (0 = 0 ∨ 2 ^ 32 < (0#32).toNat + 0) ∧
    (2 = 0 ∨ 2 ^ 32 < (0xFFFFFFFF#32).toNat + 2) ∧ (0 ∉ [1, 2, 4] ∧ 3 ∉ [1, 2, 4] ∧ 8 ∉ [1, 2, 4]) := by decide

theorem witness_PlacedWordIsTheOneFetched : State.reset.Inv ∧ 0xFFFFFFFF < 2 ^ 32 := by decide

theorem witness_EveryStepKeepsTheInvariant :
    (small 0x40 0x200 0xFF [] 0x00208023).Inv ∧ ∃ t, step (small 0x40 0x200 0xFF [] 0x00208023) = .next t ∧ (t.pc == 0x44) = true :=
  ⟨by decide, next_of_after (by decide)⟩

theorem witness_HostAndEnvironmentKeepTheInvariant :
    State.reset.Inv ∧ hostStep (.busWrite 0 4 0x00500093) State.reset = .next (State.reset.busWrite 0 .word 0x00500093) ∧
    Between State.reset (State.reset.busWrite 0 .word 0x00500093) :=
  ⟨by decide, rfl, .host (.busWrite 0 4 0x00500093) rfl (.nothing _)⟩

/-- Program P1's first step, after the host has written its word. -/
theorem witness_EveryRunKeepsTheInvariant : State.reset.Inv ∧ ∃ t, Reaches 1 State.reset t ∧ (t.getX 1 == 5) = true := by
  obtain ⟨t, ht, hx⟩ := next_of_after (s := State.reset.busWrite 0 .word 0x00500093) (p := fun t => t.getX 1 == 5) (by decide)
  exact ⟨by decide, t, .stepped (.start (.host (.busWrite 0 4 0x00500093) rfl (.nothing _))) ht (.nothing t), hx⟩

theorem witness_StepsKeepTheDeviceMap : ∃ t, step (State.withHighLine State.reset) = .next t ∧ (t.devices.length == 2) = true :=
  next_of_after (by decide)

end Sys2Proof.Tests
end

section
/-! PROOF. The state's own rules (10_state.md): the register file, the program counter, and `bus.error`. -/

namespace Sys2Proof.Machine

/-! ### The register file (10_state.md rules R12, R13) -/

/-- No register is stored at index 0, nor at an index from `N` on. -/
theorem State.getX_of_unstored {s : State} {i : Nat} (h : i = 0 ∨ s.registerCount ≤ i) : s.getX i = 0#32 := by
  obtain rfl | hn := h
  · exact s.getX_zero
  · rw [State.getX, if_pos hn, ite_self]

theorem State.setX_of_unstored {s : State} {i : Nat} (v : Word) (h : i = 0 ∨ s.registerCount ≤ i) : s.setX i v = s := by
  obtain rfl | hn := h
  · rfl
  · rw [State.setX, if_pos hn, ite_self]

/-- `State.getX_setX` at an index that names a stored register. -/
theorem State.getX_setX_of_stored {s : State} {i : Nat} (h0 : i ≠ 0) (hn : i < s.registerCount) (j : Nat) (v : Word) :
    (s.setX i v).getX j = if j = i then v else s.getX j := by
  have hstored : (j = i ∧ j ≠ 0 ∧ j < s.registerCount) ↔ j = i := ⟨And.left, fun h => ⟨h, h ▸ h0, h ▸ hn⟩⟩
  rw [State.getX_setX, if_congr hstored rfl rfl]

/-! ### The program counter (10_state.md rule R15) -/

/-- The control-flow update writes `pc` through `alignPc` in each of its cases (40_execution_engine.md rule R110). -/
theorem State.advance_pc (s : State) (taken : Bool) (r : Word) :
    (s.advance taken r).pc = alignPc (if s.enteringIrq then Config.trapVector else s.target taken r) := by
  unfold State.advance
  split <;> rfl

theorem State.advanceMret_pc (s : State) :
    s.advanceMret.pc = alignPc (if s.enteringIrq then Config.trapVector else s.mepc) := by
  unfold State.advanceMret
  split <;> rfl

theorem exec_pc_aligned {i : Instr} {s t : State} (h : exec i s = .next t) : ∃ v, t.pc = alignPc v := by
  obtain ⟨-, hexec⟩ | ⟨-, s', v, -, hexec⟩ := exec_inversion i s
  · obtain rfl := Host.Outcome.next.inj (h.symm.trans hexec)
    exact ⟨_, State.advanceMret_pc s⟩
  · obtain rfl := Host.Outcome.next.inj (h.symm.trans hexec)
    exact ⟨_, State.advance_pc s' v.taken v.r⟩

theorem step_pc_mod {s t : State} (h : step s = .next t) : t.pc.toNat % 4 = 0 := by
  rw [step_eq] at h
  obtain ⟨v, hv⟩ := exec_pc_aligned h
  rw [hv, alignPc_toNat_mod]

/-! ### `bus.error` and the accesses of the bus (10_state.md rule R21) -/

theorem State.busRead_busError_iff (s : State) (a : Word) (w : Width) (sg : Bool) :
    (s.busRead a w sg).2.busError = true ↔ ∀ d ∈ s.devices, d.accepts a.toNat w = false := by
  obtain ⟨hno, h⟩ | ⟨before, d, rest, hds, -, hd, h⟩ := s.busRead_cases a w sg
  · simpa [h] using hno
  · simp only [h, Bool.false_eq_true, false_iff]
    exact fun hno => by simp [hno d (by simp [hds])] at hd

theorem State.busWrite_busError_iff (s : State) (a : Word) (w : Width) (v : Word) :
    (s.busWrite a w v).busError = true ↔ ∀ d ∈ s.devices, d.accepts a.toNat w = false := by
  obtain ⟨hno, h⟩ | ⟨⟨d, hmem, hd⟩, h⟩ := s.busWrite_cases a w v
  · simpa [h] using hno
  · simp only [h, Bool.false_eq_true, false_iff]
    exact fun hno => by simp [hno d hmem] at hd

/-- A read overwrites the flag on both of its paths, so what the flag held is lost. -/
theorem State.busRead_of_busError (s : State) (b : Bool) (a : Word) (w : Width) (sg : Bool) :
    { s with busError := b }.busRead a w sg = s.busRead a w sg := rfl

theorem State.fetch_of_busError (s : State) (b : Bool) : { s with busError := b }.fetch = s.fetch := by
  simp only [State.fetch, State.busRead_of_busError, State.busIrq]

/-- The fetch comes first in a step and overwrites the flag. -/
theorem step_of_busError (s : State) (b : Bool) : step { s with busError := b } = step s := by
  rw [step_eq, step_eq, State.fetch_of_busError]

/-! ### `bus.error` after an instruction (40_execution_engine.md rule R111) -/

/-- The tags that make no access are the three others. -/
theorem accessesMemory_eq_false_iff (wb : WbMem) : accessesMemory wb = false ↔ wb ∈ [WbMem.r, .pcPlus, .none] := by
  cases wb <;> decide

/-- The outcome `o` of instruction `i` shows its error as rule R111 says: the trace's load or store error is `bus.error` if
the instruction makes an access and false if it makes none, and then `bus.error` is as it was. -/
def ReportsAccess (i : Instr) (s : State) (o : Host.Outcome State Fault Refusal) : Prop :=
  ∃ (s' : State) (v : StepValues), o = .next (s'.emit (s.traceOf i.record v)) ∧
    v.loadStoreError = (accessesMemory i.record.tags.wbMem && s'.busError) ∧
    (accessesMemory i.record.tags.wbMem = false → s'.busError = s.busError)

/-- An instruction without an access that keeps the flag. -/
theorem ReportsAccess.of_no_access {i : Instr} {s s' : State} {v : StepValues}
    (hi : accessesMemory i.record.tags.wbMem = false) (hv : v.loadStoreError = false) (hs : s'.busError = s.busError) :
    ReportsAccess i s (.next (s'.emit (s.traceOf i.record v))) :=
  ⟨s', v, rfl, by simp [hi, hv], fun _ => hs⟩

/-- An instruction with an access whose trace shows the flag it left. -/
theorem ReportsAccess.of_access {i : Instr} {s s' : State} {v : StepValues}
    (hi : accessesMemory i.record.tags.wbMem = true) (hv : v.loadStoreError = s'.busError) :
    ReportsAccess i s (.next (s'.emit (s.traceOf i.record v))) :=
  ⟨s', v, rfl, by simp [hi, hv], by simp [hi]⟩

theorem writeResult_reportsAccess {i : Instr} (hi : accessesMemory i.record.tags.wbMem = false) (rd : RegIdx)
    (a b r : Word) (s : State) : ReportsAccess i s (writeResult i rd a b r s) :=
  .of_no_access hi rfl (by simp)

theorem jumpAndLink_reportsAccess {i : Instr} (hi : accessesMemory i.record.tags.wbMem = false) (rd : RegIdx)
    (a b r : Word) (s : State) : ReportsAccess i s (jumpAndLink i rd a b r s) :=
  .of_no_access hi rfl (by simp)

theorem conditionalBranch_reportsAccess {i : Instr} (hi : accessesMemory i.record.tags.wbMem = false) (c : BranchCond)
    (rs1 rs2 : RegIdx) (offset : BitVec 13) (s : State) :
    ReportsAccess i s (conditionalBranch i c rs1 rs2 offset s) :=
  .of_no_access hi rfl (by simp)

theorem load_reportsAccess {i : Instr} (hi : accessesMemory i.record.tags.wbMem = true) (w : Width) (sg : Bool)
    (rd rs1 : RegIdx) (imm : BitVec 12) (s : State) : ReportsAccess i s (load i w sg rd rs1 imm s) :=
  .of_access hi (by simp)

theorem store_reportsAccess {i : Instr} (hi : accessesMemory i.record.tags.wbMem = true) (w : Width)
    (rs2 rs1 : RegIdx) (imm : BitVec 12) (s : State) : ReportsAccess i s (store i w rs2 rs1 imm s) :=
  .of_access hi (by simp)

theorem exec_reportsAccess (i : Instr) (s : State) : ReportsAccess i s (exec i s) := by
  cases i
  case mret => exact .of_no_access rfl rfl s.advanceMret_busError
  case invalid => exact .of_no_access rfl rfl (s.advance_busError false 0#32)
  case lui | auipc | addi | slti | sltiu | xori | ori | andi | slli | srli | srai | add | sub | sll | slt | sltu | xor
      | srl | sra | or | and => exact writeResult_reportsAccess rfl _ _ _ _ s
  case jal | jalr => exact jumpAndLink_reportsAccess rfl _ _ _ _ s
  case beq | bne | blt | bge | bltu | bgeu => exact conditionalBranch_reportsAccess rfl _ _ _ _ s
  case lb | lh | lw | lbu | lhu => exact load_reportsAccess rfl _ _ _ _ _ s
  case sb | sh | sw => exact store_reportsAccess rfl _ _ _ _ s

/-- After a step `bus.error` is the outcome of the load or store if there was one, and of the fetch otherwise: an
instruction without an access leaves the flag as the fetch set it, and the trace's `fetchError` is that flag. -/
theorem step_busError (s : State) : ∃ t tr, step s = .next t ∧ t.trace = some tr ∧
    t.busError = (tr.loadStoreError || (tr.fetchError && !accessesMemory tr.instr.tags.wbMem)) := by
  obtain ⟨s', v, hexec, hv, hkeep⟩ := exec_reportsAccess (decode s.fetch.1) s.fetch.2
  obtain ⟨-, -, -, -, -, hfetch⟩ := s.fetch_control
  refine ⟨_, _, by rw [step_eq, hexec], rfl, ?_⟩
  simp only [State.emit_busError, State.traceOf, hfetch, hv]
  cases hacc : accessesMemory (decode s.fetch.1).record.tags.wbMem with
  | true => simp
  | false => simp [hkeep hacc]

/-! ### `bus.error` and the host's operations (10_state.md rule R21) -/

theorem addChecked_busError {s t : State} {base : Word} {size : Nat} {body : DeviceBody}
    (h : addChecked s base size body = .next t) : t.busError = s.busError := by
  unfold addChecked at h
  split at h
  · cases h; rfl
  · cases h

theorem hostStep_busError {op : HostOp} {s t : State} (h : hostStep op s = .next t)
    (hread : ∀ a n sg, op ≠ .busRead a n sg) (hwrite : ∀ a n v, op ≠ .busWrite a n v) : t.busError = s.busError := by
  cases op with
  | coreReset => cases h; exact s.coreReset_busError
  | busReset => cases h; exact s.busReset_busError
  | addMemory base size => exact addChecked_busError h
  | addPeripheral base size id st => exact addChecked_busError h
  | busRead a n sg => exact absurd rfl (hread a n sg)
  | busWrite a n v => exact absurd rfl (hwrite a n v)

/-! ### The obligations -/

/-- Settles O8, by the read-after-write law of the register file. -/
theorem registerFileReadAfterWrite : Obligations.RegisterFileReadAfterWrite :=
  ⟨fun _ _ v h => ⟨State.getX_of_unstored h, State.setX_of_unstored v h⟩,
    fun _ _ j v h0 hn => State.getX_setX_of_stored h0 hn j v⟩

/-- Settles O9: every instruction ends in a control-flow update, which writes `pc` through `alignPc`. -/
theorem programCounterIsAMultipleOfFour : Obligations.ProgramCounterIsAMultipleOfFour :=
  ⟨fun _ _ => rfl, fun _ _ => step_pc_mod, fun _ => rfl, rfl⟩

/-- Settles O43: the fetch overwrites the flag, and after it only a load or a store does. -/
theorem busErrorIsTheOutcomeOfTheLastAccess : Obligations.BusErrorIsTheOutcomeOfTheLastAccess := by
  refine ⟨State.busRead_busError_iff, State.busWrite_busError_iff, fun s => ?_, fun _ _ _ => hostStep_busError,
    step_of_busError⟩
  obtain ⟨t, tr, hstep, htrace, herror⟩ := step_busError s
  refine ⟨t, tr, hstep, htrace, ?_⟩
  have htags : decide (tr.instr.tags.wbMem ∈ [WbMem.r, .pcPlus, .none]) = !accessesMemory tr.instr.tags.wbMem := by
    simp only [← accessesMemory_eq_false_iff, Bool.decide_eq_false]
  rw [herror, htags]

end Sys2Proof.Machine
end

section
/-! PROOF. The bus and its devices (20_memory.md): routing of an access, the flat memory's bytes, and the interrupt line. -/

namespace Sys2Proof.Machine

open Sys2Proof.Statements

/-! ### Routing an access (20_memory.md rules R44, R45) -/

theorem State.busRead_of_noDeviceAccepts {s : State} {a : Word} {w : Width} (sg : Bool) (h : NoDeviceAccepts s a w) :
    s.busRead a w sg = (0#32, { s with busError := true }) := by
  simp only [State.busRead, readFirst_none sg h]

/-- The read goes to the first device that accepts; those after it may accept too, and are as they were. -/
theorem State.busRead_of_firstAccepting {s : State} {a : Word} {w : Width} (sg : Bool) {before rest : List Device}
    {d : Device} (hs : s.devices = before ++ d :: rest) (hb : ∀ e ∈ before, e.accepts a.toNat w = false)
    (hd : d.accepts a.toNat w = true) :
    s.busRead a w sg = ((d.read a.toNat w sg).1,
      { s with devices := before ++ (d.read a.toNat w sg).2 :: rest, busError := false }) := by
  simp only [State.busRead, hs, readFirst_split sg hb hd]

theorem State.busWrite_of_noDeviceAccepts {s : State} {a : Word} {w : Width} (v : Word) (h : NoDeviceAccepts s a w) :
    s.busWrite a w v = { s with busError := true } := by
  rw [State.busWrite, if_pos ((acceptingDevices_isEmpty_iff _ _ _).2 h)]

theorem State.busWrite_of_accepting {s : State} {a : Word} {w : Width} (v : Word) (h : ¬NoDeviceAccepts s a w) :
    s.busWrite a w v = { s with devices := writeAll a.toNat w v s.devices, busError := false } := by
  rw [State.busWrite, if_neg (mt (acceptingDevices_isEmpty_iff _ _ _).1 h)]

@[simp] theorem length_writeAll (a : Nat) (w : Width) (v : Word) (ds : List Device) :
    (writeAll a w v ds).length = ds.length := List.length_map _

/-- The broadcast, device by device: written where it accepts, as it was where it does not. -/
theorem getElem?_writeAll {a : Nat} {w : Width} {v : Word} {ds : List Device} {k : Nat} {d : Device}
    (h : ds[k]? = some d) : (writeAll a w v ds)[k]? = some (if d.accepts a w then d.write a w v else d) := by
  rw [writeAll, List.getElem?_map, h, Option.map_some]

/-! ### The flat memory's bytes (20_memory.md rules R32, R43) -/

/-- The access sizes of rule R31, as the obligations list them, are those of `Width.bytes`. -/
theorem Width.bytes_of_mem {w : Width} {n : Nat} (h : (w, n) ∈ [(Width.byte, 1), (.half, 2), (.word, 4)]) :
    w.bytes = n := by
  simp only [List.mem_cons, Prod.mk.injEq, List.not_mem_nil, or_false] at h
  obtain ⟨rfl, rfl⟩ | ⟨rfl, rfl⟩ | ⟨rfl, rfl⟩ := h <;> rfl

/-- Putting a byte below a value moves the value up by the factor 2^8. -/
theorem toNat_append_byte {k : Nat} (hi : BitVec k) (lo : Byte) : (hi ++ lo).toNat = hi.toNat * 2 ^ 8 + lo.toNat := by
  rw [BitVec.toNat_append, ← Nat.shiftLeft_add_eq_or_of_lt lo.isLt, Nat.shiftLeft_eq]

/-! The little-endian sum in the form that `toNat_append_byte` gives, byte by byte from the highest. -/

theorem littleEndianSum_two (f : Nat → Nat) :
    ((List.range 2).map fun j => f j * 2 ^ (8 * j)).sum = f 1 * 2 ^ 8 + f 0 := by
  simp only [List.sum_range_succ, List.range_zero, List.map_nil, List.sum_nil]
  omega

theorem littleEndianSum_four (f : Nat → Nat) :
    ((List.range 4).map fun j => f j * 2 ^ (8 * j)).sum = ((f 3 * 2 ^ 8 + f 2) * 2 ^ 8 + f 1) * 2 ^ 8 + f 0 := by
  simp only [List.sum_range_succ, List.range_zero, List.map_nil, List.sum_nil]
  omega

/-- A read is the little-endian sum of its bytes (20_memory.md rule R32). -/
theorem Memory.localRead_toNat (m : Memory) (offset : Nat) (w : Width) :
    (m.localRead offset w).toNat =
      ((List.range w.bytes).map fun j => (m.byte (offset + j)).toNat * 2 ^ (8 * j)).sum := by
  cases w with
  | byte =>
    rw [Memory.localRead, BitVec.toNat_setWidth_of_le (by decide)]
    simp [Width.bytes]
  | half =>
    rw [Memory.localRead, BitVec.toNat_setWidth_of_le (by decide), toNat_append_byte, Width.bytes,
      littleEndianSum_two fun j => (m.byte (offset + j)).toNat, Nat.add_zero offset]
  | word =>
    rw [Memory.localRead, toNat_append_byte, toNat_append_byte, toNat_append_byte, Width.bytes,
      littleEndianSum_four fun j => (m.byte (offset + j)).toNat, Nat.add_zero offset]

/-! ### The interrupt line (20_memory.md rule R47) -/

theorem State.busIrq_iff (s : State) : s.busIrq = true ↔ ∃ d ∈ s.devices, d.irq = true := List.any_eq_true

/-- No instruction writes the sample. -/
theorem exec_irqSample (i : Instr) (s : State) : ∃ t, exec i s = .next t ∧ t.irqSample = s.irqSample := by
  obtain ⟨-, hexec⟩ | ⟨-, s', v, hwb, hexec⟩ := exec_inversion i s
  · exact ⟨_, hexec, by simp⟩
  · obtain ⟨-, -, -, hsample, -⟩ := hwb.control
    exact ⟨_, hexec, by simp [hsample]⟩

/-- The sample of a step is the line before its fetch (40_execution_engine.md rule R101). -/
theorem step_irqSample (s : State) : ∃ t, step s = .next t ∧ t.irqSample = s.busIrq := by
  obtain ⟨t, hexec, hsample⟩ := exec_irqSample (decode s.fetch.1) s.fetch.2
  obtain ⟨-, -, -, -, hfetch, -⟩ := s.fetch_control
  exact ⟨t, hexec, hsample.trans hfetch⟩

/-! ### The obligations -/

/-- Settles O40, by the routed read at the first accepting device. -/
theorem busReadGoesToTheFirstAcceptingDevice : Obligations.BusReadGoesToTheFirstAcceptingDevice :=
  fun _ _ _ sg => ⟨State.busRead_of_noDeviceAccepts sg, fun _ _ _ => State.busRead_of_firstAccepting sg⟩

/-- Settles O41: the broadcast is a map over the device list. -/
theorem busWriteGoesToEveryAcceptingDevice : Obligations.BusWriteGoesToEveryAcceptingDevice := by
  refine fun s a w v => ⟨State.busWrite_of_noDeviceAccepts v, fun h => ?_⟩
  rw [State.busWrite_of_accepting v h]
  exact ⟨rfl, length_writeAll _ _ _ _, fun k d => getElem?_writeAll⟩

/-- Settles O44, by the flat memory's laws of a write and the sum of a read's bytes. -/
theorem flatMemoryIsLittleEndianBytes : Obligations.FlatMemoryIsLittleEndianBytes := by
  refine ⟨fun size offset m w v n hn hwf hin => ?_, fun _ _ _ _ => ⟨rfl, rfl, rfl, rfl⟩⟩
  obtain rfl := Width.bytes_of_mem hn
  exact ⟨Memory.wf_localWrite hwf w v hin, fun _ => Memory.byte_localWrite_inside hwf w v hin,
    fun _ => Memory.byte_localWrite_outside m offset w v, Memory.localRead_toNat m offset w⟩

/-- Settles O46: the fetch samples the line, and no instruction writes the sample. -/
theorem theLineIsTheOrOfTheDevices : Obligations.TheLineIsTheOrOfTheDevices := by
  refine ⟨State.busIrq_iff, fun s h => ?_, step_irqSample⟩
  simp [State.busIrq, h]

end Sys2Proof.Machine
end

section
/-! PROOF. The step engine (40_execution_engine.md). The ALU's shifts and comparisons stand first. Then each instruction's
meaning is shown to be the engine over the instruction's tags, and the statements about writeback, control flow and trace
are read off the engine, where they depend on the tags alone. -/

namespace Sys2Proof

/-! ### The record of an instruction -/

/-- Only `mret` has the name on which the control-flow update depends (40_execution_engine.md rule R110). -/
theorem Instr.record_name_eq_mret_iff (i : Instr) : i.record.name = .mret ↔ i = .mret := by
  refine ⟨fun h => ?_, fun h => h ▸ rfl⟩
  cases i
  case mret => rfl
  all_goals nomatch h

theorem Instr.record_name_ne_mret {i : Instr} (h : i.record.tags ≠ Mnemonic.mret.tags) : i.record.name ≠ .mret :=
  fun hname => h (congrArg Mnemonic.tags hname)

namespace Machine

open Sys2Proof.Statements

/-! ### The ALU's shifts and comparisons (rules R106, R107) -/

theorem shiftAmount_eq (b : Word) : shiftAmount b = b.toNat % 32 := by
  rw [shiftAmount, BitVec.extractLsb'_toNat, Nat.shiftRight_zero]

theorem aluSll_toNat (a b : Word) : (aluSll a b).toNat = a.toNat * 2 ^ (b.toNat % 32) % 2 ^ 32 := by
  rw [aluSll, BitVec.toNat_shiftLeft, Nat.shiftLeft_eq, shiftAmount_eq]

theorem aluSrl_toNat (a b : Word) : (aluSrl a b).toNat = a.toNat / 2 ^ (b.toNat % 32) := by
  rw [aluSrl, BitVec.toNat_ushiftRight, Nat.shiftRight_eq_div_pow, shiftAmount_eq]

theorem aluSra_toInt (a b : Word) : (aluSra a b).toInt = a.toInt / 2 ^ (b.toNat % 32) := by
  rw [aluSra, BitVec.toInt_sshiftRight, Int.shiftRight_eq_div_pow, shiftAmount_eq, Nat.cast_pow, Nat.cast_ofNat]

theorem aluSlt_eq (a b : Word) : aluSlt a b = if a.toInt < b.toInt then 1#32 else 0#32 := by
  simp [aluSlt, zeroOrOne, lessSigned]

theorem aluSltu_eq (a b : Word) : aluSltu a b = if a.toNat < b.toNat then 1#32 else 0#32 := by
  simp [aluSltu, zeroOrOne, lessUnsigned]

/-! ### The parts of the engine -/

/-- The ALU result `r` of the engine (rules R104 to R107). -/
def engineResult (d : Decoded) (s : State) : Word :=
  alu d.tags.aluOp (operandA d.tags.src1 s.pc (s.readReg d.rs1)) (operandB d.tags.src2 d.imm (s.readReg d.rs2))

/-- The branch decision of the engine (rule R108). -/
def engineTaken (d : Decoded) (s : State) : Bool := branchTaken d.tags.branch (s.readReg d.rs1) (s.readReg d.rs2)

/-- The loaded value and the state after the writeback of the engine (rule R109). -/
def engineWriteback (d : Decoded) (s : State) : Word × State :=
  s.writeback d.tags.wbMem d.rd (engineResult d s) (s.readReg d.rs2)

/-- The values of the engine that the trace shows (rules R111, R112). -/
def engineValues (d : Decoded) (s : State) : StepValues where
  a := operandA d.tags.src1 s.pc (s.readReg d.rs1)
  b := operandB d.tags.src2 d.imm (s.readReg d.rs2)
  r := engineResult d s
  l := (engineWriteback d s).1
  taken := engineTaken d s
  loadStoreError := accessesMemory d.tags.wbMem && (engineWriteback d s).2.busError

/-- The engine in its parts: writeback, then control flow, then the trace. -/
theorem engine_eq (d : Decoded) (s : State) :
    engine d s = ((engineWriteback d s).2.controlFlow d.name (engineTaken d s) (engineResult d s)).emit
      (s.traceOf d (engineValues d s)) := rfl

theorem engine_trace (d : Decoded) (s : State) : (engine d s).trace = some (s.traceOf d (engineValues d s)) := rfl

theorem State.controlFlow_of_ne_mret {name : Mnemonic} (h : name ≠ .mret) (s : State) (taken : Bool) (r : Word) :
    s.controlFlow name taken r = s.advance taken r := by
  rw [State.controlFlow, State.advance, if_neg h, State.target]
  cases taken <;> rfl

/-- For every instruction but `mret` the engine's control flow is the update the meanings use. -/
theorem engine_eq_advance {i : Instr} (h : i.record.tags ≠ Mnemonic.mret.tags) (s : State) :
    engine i.record s = ((engineWriteback i.record s).2.advance (engineTaken i.record s) (engineResult i.record s)).emit
      (s.traceOf i.record (engineValues i.record s)) := by
  rw [engine_eq, State.controlFlow_of_ne_mret (Instr.record_name_ne_mret h)]

/-! ### Each shape of instruction is the engine on its tags (rule R115) -/

section Shapes

variable {i : Instr} {rd rs1 rs2 : RegIdx} {s : State}

theorem writeResult_eq_engine {c1 : Src1} {c2 : Src2} {op : AluOp} {a b r : Word}
    (ht : i.record.tags = ⟨c1, c2, op, .none, .r⟩) (hrd : i.record.rd = rd)
    (ha : operandA c1 s.pc (s.readReg i.record.rs1) = a) (hb : operandB c2 i.record.imm (s.readReg i.record.rs2) = b)
    (hr : alu op a b = r) : writeResult i rd a b r s = .next (engine i.record s) := by
  subst hrd ha hb hr
  rw [engine_eq_advance (by simp [ht, Mnemonic.tags])]
  simp [writeResult, engineWriteback, engineTaken, engineResult, engineValues, ht, State.writeback, branchTaken,
    accessesMemory]

theorem registerForm_eq_engine {op : AluOp} {f : Word → Word → Word}
    (ht : i.record.tags = ⟨.x1, .x2, op, .none, .r⟩) (hf : alu op = f)
    (hrd : i.record.rd = rd) (hrs1 : i.record.rs1 = rs1) (hrs2 : i.record.rs2 = rs2) :
    registerForm i f rd rs1 rs2 s = .next (engine i.record s) :=
  writeResult_eq_engine ht hrd (congrArg s.readReg hrs1) (congrArg s.readReg hrs2) (by rw [hf])

theorem immediateForm_eq_engine {op : AluOp} {f : Word → Word → Word} {imm : Word}
    (ht : i.record.tags = ⟨.x1, .imm, op, .none, .r⟩) (hf : alu op = f)
    (hrd : i.record.rd = rd) (hrs1 : i.record.rs1 = rs1) (himm : i.record.imm = imm) :
    immediateForm i f rd rs1 imm s = .next (engine i.record s) :=
  writeResult_eq_engine ht hrd (congrArg s.readReg hrs1) himm (by rw [hf])

theorem jumpAndLink_eq_engine {c : Src1} {a b : Word}
    (ht : i.record.tags = ⟨c, .imm, .add, .al, .pcPlus⟩) (hrd : i.record.rd = rd)
    (ha : operandA c s.pc (s.readReg i.record.rs1) = a) (hb : i.record.imm = b) :
    jumpAndLink i rd a b (aluAdd a b) s = .next (engine i.record s) := by
  subst hrd ha hb
  rw [engine_eq_advance (by simp [ht, Mnemonic.tags])]
  simp [jumpAndLink, engineWriteback, engineTaken, engineResult, engineValues, ht, State.writeback, branchTaken,
    accessesMemory, operandB, alu]

theorem conditionalBranch_eq_engine {c : BranchCond} {offset : BitVec 13}
    (ht : i.record.tags = ⟨.pc, .imm, .add, c, .none⟩) (hrs1 : i.record.rs1 = rs1)
    (hrs2 : i.record.rs2 = rs2) (himm : i.record.imm = sextOffsetB offset) :
    conditionalBranch i c rs1 rs2 offset s = .next (engine i.record s) := by
  subst hrs1 hrs2
  rw [engine_eq_advance (by simp [ht, Mnemonic.tags])]
  simp [conditionalBranch, engineWriteback, engineTaken, engineResult, engineValues, ht, State.writeback, accessesMemory,
    operandA, operandB, alu, himm, State.pcRelative]

theorem load_eq_engine {wb : WbMem} {w : Width} {sg : Bool} {imm : BitVec 12}
    (ht : i.record.tags = ⟨.x1, .imm, .add, .none, wb⟩)
    (hwb : ∀ rd r x2, s.writeback wb rd r x2 = s.loadTo rd r w sg) (hacc : accessesMemory wb = true)
    (hrd : i.record.rd = rd) (hrs1 : i.record.rs1 = rs1) (himm : i.record.imm = sextImm imm) :
    load i w sg rd rs1 imm s = .next (engine i.record s) := by
  subst hrd hrs1
  rw [engine_eq_advance (by simp [ht, Mnemonic.tags])]
  simp [load, engineWriteback, engineTaken, engineResult, engineValues, ht, hwb, hacc, State.loadTo, branchTaken,
    operandA, operandB, alu, himm, State.effectiveAddress]

theorem store_eq_engine {wb : WbMem} {w : Width} {imm : BitVec 12}
    (ht : i.record.tags = ⟨.x1, .imm, .add, .none, wb⟩)
    (hwb : ∀ rd r x2, s.writeback wb rd r x2 = (0#32, s.busWrite r w x2)) (hacc : accessesMemory wb = true)
    (hrs2 : i.record.rs2 = rs2) (hrs1 : i.record.rs1 = rs1) (himm : i.record.imm = sextImm imm) :
    store i w rs2 rs1 imm s = .next (engine i.record s) := by
  subst hrs2 hrs1
  rw [engine_eq_advance (by simp [ht, Mnemonic.tags])]
  simp [store, engineWriteback, engineTaken, engineResult, engineValues, ht, hwb, hacc, branchTaken, operandA, operandB,
    alu, himm, State.effectiveAddress]

end Shapes

/-- The meaning of every instruction is the engine on its record, shape by shape. -/
theorem exec_eq_engine (i : Instr) (s : State) : exec i s = .next (engine i.record s) := by
  cases i
  case mret | invalid => rfl
  case lui | auipc => exact writeResult_eq_engine rfl (rdOf_encodeU _ _ _) rfl rfl rfl
  case addi | slti | sltiu | xori | ori | andi =>
    exact immediateForm_eq_engine rfl rfl (rdOf_encodeI _ _ _ _ _) (rs1Of_encodeI _ _ _ _ _) rfl
  case slli | srli | srai =>
    exact immediateForm_eq_engine rfl rfl (rdOf_encodeR _ _ _ _ _ _) (rs1Of_encodeR _ _ _ _ _ _) rfl
  case add | sub | sll | slt | sltu | xor | srl | sra | or | and =>
    exact registerForm_eq_engine rfl rfl (rdOf_encodeR _ _ _ _ _ _) (rs1Of_encodeR _ _ _ _ _ _)
      (rs2Of_encodeR _ _ _ _ _ _)
  case jal => exact jumpAndLink_eq_engine rfl (rdOf_encodeJ _ _ _) rfl rfl
  case jalr =>
    exact jumpAndLink_eq_engine rfl (rdOf_encodeI _ _ _ _ _) (congrArg s.readReg (rs1Of_encodeI _ _ _ _ _)) rfl
  case beq | bne | blt | bge | bltu | bgeu =>
    exact conditionalBranch_eq_engine rfl (rs1Of_encodeB _ _ _ _ _) (rs2Of_encodeB _ _ _ _ _) rfl
  case lb | lh | lw | lbu | lhu =>
    exact load_eq_engine rfl (fun _ _ _ => rfl) rfl (rdOf_encodeI _ _ _ _ _) (rs1Of_encodeI _ _ _ _ _) rfl
  case sb | sh | sw =>
    exact store_eq_engine rfl (fun _ _ _ => rfl) rfl (rs2Of_encodeS _ _ _ _ _) (rs1Of_encodeS _ _ _ _ _) rfl

theorem step_eq_engine (s : State) : step s = .next (engine (decodeRecord s.fetch.1) s.fetch.2) :=
  exec_eq_engine (decode s.fetch.1) s.fetch.2

/-! ### Sample and fetch (rule R101) -/

theorem State.fetch_incPc (s : State) : s.fetch.2.incPc = s.incPc := by
  obtain ⟨-, hpc, -⟩ := s.fetch_control
  rw [State.incPc, hpc, State.incPc]

/-- The entry decision of a step is taken from the line before the fetch. -/
theorem State.fetch_enteringIrq (s : State) : s.fetch.2.enteringIrq = (s.busIrq && !s.irqState) := by
  obtain ⟨-, -, -, hstate, hsample, -⟩ := s.fetch_control
  rw [State.enteringIrq, hsample, hstate]

theorem State.fetch_fetchError_iff (s : State) : s.fetch.2.fetchError = true ↔ NoDeviceAccepts s s.pc .word :=
  s.busRead_busError_iff s.pc .word false

/-! ### Writeback (rule R109) -/

/-- The engine's writeback is one of the four that `WritebackOf` lists. -/
theorem engineWriteback_writebackOf (d : Decoded) (s : State) : WritebackOf s (engineWriteback d s).2 := by
  unfold engineWriteback
  cases d.tags.wbMem
  case none => exact .nothing
  case r | pcPlus => exact .register d.rd _
  case lb | lh | lw | lbu | lhu => exact .load d.rd _ _ _
  case sb | sh | sw => exact .store _ _ _

/-- `t` has the registers, the devices and the error flag of `s`: the two differ in control state and trace only. -/
structure SameRegistersAndBus (s t : State) : Prop where
  regs : t.regs = s.regs
  devices : t.devices = s.devices
  busError : t.busError = s.busError

/-- What the engine does after its writeback touches neither registers nor bus. -/
theorem engine_sameRegistersAndBus (d : Decoded) (s : State) :
    SameRegistersAndBus (engineWriteback d s).2 (engine d s) := by
  rw [engine_eq, State.controlFlow]
  split_ifs <;> exact ⟨rfl, rfl, rfl⟩

theorem SameRegistersAndBus.registersKept {s t : State} (h : SameRegistersAndBus s t) : RegistersKept s t :=
  ⟨State.registerCount_congr h.regs, State.getX_congr h.regs⟩

theorem SameRegistersAndBus.busUntouched {s t : State} (h : SameRegistersAndBus s t) : BusUntouched s t :=
  ⟨h.devices, h.busError, fun address => by rw [State.bytesAt, State.bytesAt, h.devices]⟩

/-- A state with the registers of a register write, made where the registers are those of `s`. -/
theorem registerWritten_of_regs {s s' t : State} {rd : RegIdx} {v : Word} (hs : s'.regs = s.regs)
    (ht : t.regs = (s'.writeReg rd v).regs) : RegisterWritten s t rd v := by
  have hcount := State.registerCount_congr hs
  refine ⟨?_, fun j => ?_⟩
  · rw [State.registerCount_congr ht, State.writeReg_registerCount, hcount]
  · rw [State.getX_congr ht, State.getX_writeReg, hcount, State.getX_congr hs]

theorem registerWritten_of_writeReg {s t : State} {rd : RegIdx} {v : Word}
    (h : SameRegistersAndBus (s.writeReg rd v) t) : RegisterWritten s t rd v ∧ BusUntouched s t := by
  obtain ⟨hregs, hdevices, herror⟩ := h
  rw [State.writeReg_devices] at hdevices
  rw [State.writeReg_busError] at herror
  exact ⟨registerWritten_of_regs rfl hregs, hdevices, herror,
    fun address => by rw [State.bytesAt, State.bytesAt, hdevices]⟩

theorem loadWriteback_of_loadTo {s t : State} {tr : Trace} {rd : RegIdx} {w : Width} {sg : Bool}
    (ht : SameRegistersAndBus (s.loadTo rd tr.r w sg).2 t) (hl : tr.l = (s.loadTo rd tr.r w sg).1) :
    LoadWriteback s t tr rd w sg := by
  obtain ⟨hregs, hdevices, herror⟩ := ht
  have hwritten : RegisterWritten s t rd (s.busRead tr.r w sg).1 := registerWritten_of_regs (s.busRead_regs _ _ _) hregs
  simp only [State.loadTo, State.writeReg_devices, State.writeReg_busError] at hdevices herror
  refine ⟨hwritten, hl, hdevices, herror, fun hno => ?_⟩
  rw [State.busRead_of_noDeviceAccepts sg hno] at hwritten hdevices
  exact ⟨hwritten, hdevices⟩

theorem storeWriteback_of_busWrite {s t : State} {tr : Trace} {x2 : Word} {w : Width}
    (ht : SameRegistersAndBus (s.busWrite tr.r w x2) t) (hl : tr.l = 0#32) : StoreWriteback s t tr x2 w := by
  obtain ⟨hregs, hdevices, herror⟩ := ht
  rw [State.busWrite_regs] at hregs
  refine ⟨⟨State.registerCount_congr hregs, State.getX_congr hregs⟩, hl, hdevices, herror, fun hno => ?_⟩
  rw [hdevices, State.busWrite_of_noDeviceAccepts x2 hno]

/-! ### The control-flow update (rule R110) and the error of an access (rule R111) -/

/-- The control-flow update written out, the four cases in their order (rule R110). -/
theorem State.controlFlow_control (s : State) (name : Mnemonic) (taken : Bool) (r : Word) :
    let t := s.controlFlow name taken r
    if s.irqSample = true ∧ s.irqState = false then
      t.pc = 4#32 ∧ t.mepc = (if taken then r else s.incPc) ∧ t.irqState = true
    else if name = .mret then t.pc = alignPc s.mepc ∧ t.mepc = s.mepc ∧ t.irqState = false
    else if taken then t.pc = alignPc r ∧ t.mepc = s.mepc ∧ t.irqState = s.irqState
    else t.pc = alignPc s.incPc ∧ t.mepc = s.mepc ∧ t.irqState = s.irqState := by
  have hentry : s.enteringIrq = true ↔ s.irqSample = true ∧ s.irqState = false := by simp [State.enteringIrq]
  simp only [State.controlFlow, hentry]
  split_ifs <;> simp

/-- The tags that make an access are the loads and the stores. -/
theorem accessesMemory_eq_true_iff (wb : WbMem) :
    accessesMemory wb = true ↔ wb ∈ [WbMem.lb, .lh, .lw, .lbu, .lhu, .sb, .sh, .sw] := by
  cases wb <;> decide

/-! ### The obligations -/

/-- Settles O15: the step is the engine on the fetched word, and its trace is of the state after the fetch. -/
theorem stepSamplesThenFetches : Obligations.StepSamplesThenFetches := by
  intro s
  obtain ⟨-, hpc, -⟩ := s.fetch_control
  refine ⟨_, _, step_eq_engine s, engine_trace _ _, hpc, s.fetch_incPc, s.fetch_enteringIrq, rfl, fun hno => ?_,
    fun hacc => ?_⟩
  · exact ⟨s.fetch_fetchError_iff.2 hno, by rw [State.busRead_of_noDeviceAccepts false hno]⟩
  · exact Bool.eq_false_iff.2 (mt s.fetch_fetchError_iff.1 hacc)

/-- Settles O16: the engine's writeback, tag by tag, which nothing after it touches. -/
theorem writebackFollowsTheTag : Obligations.WritebackFollowsTheTag := by
  intro i s
  refine ⟨_, _, exec_eq_engine i s, engine_trace _ _, ?_⟩
  have ht := engine_sameRegistersAndBus i.record s
  have hl : (engineValues i.record s).l = (engineWriteback i.record s).1 := rfl
  unfold engineWriteback at ht hl
  cases hwb : i.record.tags.wbMem <;> rw [hwb] at ht hl
  case r | pcPlus => exact registerWritten_of_writeReg ht
  case none => exact ⟨ht.registersKept, ht.busUntouched, hl⟩
  case lb | lh | lw | lbu | lhu => exact loadWriteback_of_loadTo ht hl
  case sb | sh | sw => exact storeWriteback_of_busWrite ht hl

/-- Settles O17: the engine's control flow, after a writeback that leaves the control state alone. -/
theorem controlFlowFollowsThePriorityOrder : Obligations.ControlFlowFollowsThePriorityOrder := by
  intro i s
  refine ⟨_, _, exec_eq_engine i s, engine_trace _ _, ?_, ?_⟩
  · rintro rfl
    rfl
  · obtain ⟨hpc, hmepc, hstate, hsample, -⟩ := (engineWriteback_writebackOf i.record s).control
    have hflow := (engineWriteback i.record s).2.controlFlow_control i.record.name (engineTaken i.record s)
      (engineResult i.record s)
    simp only [State.incPc, hpc, hmepc, hstate, hsample, i.record_name_eq_mret_iff] at hflow
    exact hflow

/-- Settles O18, by the report of `bus.error` that every instruction makes. -/
theorem loadStoreErrorIsTheErrorOfTheAccess : Obligations.LoadStoreErrorIsTheErrorOfTheAccess := by
  intro i s
  obtain ⟨s', v, hexec, herror, -⟩ := exec_reportsAccess i s
  refine ⟨_, _, hexec, rfl, fun hacc => ?_, fun hno => ?_⟩
  · rw [← accessesMemory_eq_true_iff] at hacc
    rwa [hacc, Bool.true_and] at herror
  · rw [← accessesMemory_eq_false_iff] at hno
    rwa [hno, Bool.false_and] at herror

/-- Settles O10, by the arithmetic reading of each shift. -/
theorem shiftsUseTheLowFiveBitsOfTheAmount : Obligations.ShiftsUseTheLowFiveBitsOfTheAmount :=
  fun a b => ⟨aluSll_toNat a b, aluSrl_toNat a b, aluSra_toInt a b⟩

/-- Settles O11, by the two comparisons as conditionals. -/
theorem comparisonsGiveOneOrZero : Obligations.ComparisonsGiveOneOrZero := fun a b =>
  ⟨fun h => (aluSlt_eq a b).trans (if_pos h), fun h => (aluSlt_eq a b).trans (if_neg h.not_gt),
    fun h => (aluSltu_eq a b).trans (if_pos h), fun h => (aluSltu_eq a b).trans (if_neg h.not_gt), by decide⟩

end Machine

end Sys2Proof
end

section
/-! PROOF. Interrupt entry and the return from it (60_exceptions.md, 44_system.md section 1). That the line decides nothing
but the control flow is read off the engine: its writeback does not look at the sample. -/

namespace Sys2Proof.Machine

open Sys2Proof.Statements

/-! ### The sample passes through the bus and the writeback unread -/

theorem State.busRead_of_irqSample (s : State) (b : Bool) (a : Word) (w : Width) (sg : Bool) :
    { s with irqSample := b }.busRead a w sg =
      ((s.busRead a w sg).1, { (s.busRead a w sg).2 with irqSample := b }) := by
  simp only [State.busRead]
  split <;> rfl

theorem State.busWrite_of_irqSample (s : State) (b : Bool) (a : Word) (w : Width) (v : Word) :
    { s with irqSample := b }.busWrite a w v = { s.busWrite a w v with irqSample := b } := by
  unfold State.busWrite
  split <;> rfl

theorem State.writeReg_of_irqSample (s : State) (b : Bool) (rd : RegIdx) (v : Word) :
    { s with irqSample := b }.writeReg rd v = { s.writeReg rd v with irqSample := b } := by
  by_cases h0 : rd.toNat = 0
  · simp [State.writeReg, State.setX, h0]
  · by_cases hn : s.regs.length + 1 ≤ rd.toNat <;>
      simp [State.writeReg, State.setX, State.registerCount, h0, hn]

theorem State.loadTo_of_irqSample (s : State) (b : Bool) (rd : RegIdx) (a : Word) (w : Width) (sg : Bool) :
    { s with irqSample := b }.loadTo rd a w sg =
      ((s.loadTo rd a w sg).1, { (s.loadTo rd a w sg).2 with irqSample := b }) := by
  simp only [State.loadTo, State.busRead_of_irqSample, State.writeReg_of_irqSample]

/-- Step 8 (40_execution_engine.md rule R109) neither reads nor writes the sample. -/
theorem State.writeback_of_irqSample (s : State) (b : Bool) (wb : WbMem) (rd : RegIdx) (r x2 : Word) :
    { s with irqSample := b }.writeback wb rd r x2 =
      ((s.writeback wb rd r x2).1, { (s.writeback wb rd r x2).2 with irqSample := b }) := by
  cases wb
  case none => rfl
  case r => exact congrArg (Prod.mk _) (s.writeReg_of_irqSample b rd r)
  case pcPlus => exact congrArg (Prod.mk _) (s.writeReg_of_irqSample b rd s.incPc)
  case lb | lh | lw | lbu | lhu => exact s.loadTo_of_irqSample b rd r _ _
  case sb | sh | sw => exact congrArg (Prod.mk _) (s.busWrite_of_irqSample b r _ x2)

/-- Whatever the sample, an instruction leaves the registers and the bus as the writeback from `s` does. -/
theorem engine_of_irqSample_sameRegistersAndBus (d : Decoded) (s : State) (b : Bool) :
    SameRegistersAndBus (engineWriteback d s).2 (engine d { s with irqSample := b }) := by
  have hwriteback : (engineWriteback d { s with irqSample := b }).2 =
      { (engineWriteback d s).2 with irqSample := b } :=
    congrArg Prod.snd (s.writeback_of_irqSample b d.tags.wbMem d.rd (engineResult d s) (s.readReg d.rs2))
  obtain ⟨hregs, hdevices, herror⟩ := engine_sameRegistersAndBus d { s with irqSample := b }
  rw [hwriteback] at hregs hdevices herror
  exact ⟨hregs, hdevices, herror⟩

/-! ### The obligations -/

/-- Settles O22: the fetch samples the high line, so the control flow of rule R110 takes its first case; and what is done to
registers and bus does not depend on the sample. -/
theorem highLineEntersTheHandler : Obligations.HighLineEntersTheHandler := by
  refine ⟨fun s hline hstate => ?_, fun i s _ => ?_⟩
  · obtain ⟨-, hpc, -, hfetchState, hfetchSample, -⟩ := s.fetch_control
    have hhigh := s.busIrq_iff.2 hline
    obtain ⟨t, tr, hexec, htrace, -, hflow⟩ := controlFlowFollowsThePriorityOrder (decode s.fetch.1) s.fetch.2
    obtain ⟨t', tr', hstep, htrace', -, -, hirq, -⟩ := stepSamplesThenFetches s
    obtain rfl := Host.Outcome.next.inj (hexec.symm.trans hstep)
    obtain rfl := Option.some.inj (htrace.symm.trans htrace')
    rw [if_pos ⟨hfetchSample.trans hhigh, hfetchState.trans hstate⟩, hpc] at hflow
    obtain ⟨htrap, hmepc, hhandler⟩ := hflow
    have hentering : tr.irq = true := by rw [hirq, ← State.busIrq, hhigh, hstate]; rfl
    exact ⟨t, tr, hstep, htrace, hentering, htrap, hhandler, hmepc⟩
  · have hhigh := engine_of_irqSample_sameRegistersAndBus i.record s true
    have hlow := engine_of_irqSample_sameRegistersAndBus i.record s false
    exact ⟨_, _, exec_eq_engine i _, exec_eq_engine i _, hhigh.regs.trans hlow.regs.symm,
      hhigh.devices.trans hlow.devices.symm, hhigh.busError.trans hlow.busError.symm⟩

/-- Settles O38: `mret` is its control-flow update alone. -/
theorem mretReturnsUnlessAnInterruptEnters : Obligations.MretReturnsUnlessAnInterruptEnters := by
  intro s
  have hsame : SameRegistersAndBus s (s.advanceMret.emit (s.traceOf Instr.mret.record noValues)) :=
    ⟨s.advanceMret_regs, s.advanceMret_devices, s.advanceMret_busError⟩
  have hflow := s.advanceMret_control
  refine ⟨_, rfl, hsame.registersKept, hsame.busUntouched, ⟨_, rfl, rfl, rfl, rfl, rfl, rfl, rfl⟩, fun henter => ?_,
    fun hreturn => ?_⟩
  · rw [if_pos henter] at hflow
    obtain ⟨hmepc, hpc, hstate⟩ := hflow
    exact ⟨hpc, hmepc, hstate⟩
  · have hnot : ¬(s.irqSample = true ∧ s.irqState = false) := by
      rintro ⟨hsample, hstate⟩
      simp [hsample, hstate] at hreturn
    rwa [if_neg hnot] at hflow

end Sys2Proof.Machine
end

section
/-! PROOF. Encoding and decoding (30_encoding.md): the two round trips, the opcode table against the decoder, and the fields
of the decoded record. -/

namespace Sys2Proof

/-! ### From an instruction to its word and back, format by format (rules R73, R80) -/

section RoundTrip

variable {f7 : BitVec 7} {f3 : BitVec 3} {op : BitVec 7}

/-- An R-type row, or a shift-immediate's with the amount in the place of `rs2`, is read back from its word. -/
theorem decode_encodeR {c : RegIdx → RegIdx → RegIdx → Instr}
    (hrow : ∀ {w : Word}, opcodeOf w = op → funct3Of w = f3 → funct7Of w = f7 →
      DecodesAs w (c (rdOf w) (rs1Of w) (rs2Of w)))
    (rd rs1 rs2 : RegIdx) : decode (encodeR f7 rs2 rs1 f3 rd op) = c rd rs1 rs2 := by
  simpa using (hrow (opcodeOf_encodeR f7 rs2 rs1 f3 rd op) (funct3Of_encodeR f7 rs2 rs1 f3 rd op)
    (funct7Of_encodeR f7 rs2 rs1 f3 rd op)).decode_eq

theorem decode_encodeI {c : RegIdx → RegIdx → BitVec 12 → Instr}
    (hrow : ∀ {w : Word}, opcodeOf w = op → funct3Of w = f3 → DecodesAs w (c (rdOf w) (rs1Of w) (immIOf w)))
    (rd rs1 : RegIdx) (imm : BitVec 12) : decode (encodeI imm rs1 f3 rd op) = c rd rs1 imm := by
  simpa using (hrow (opcodeOf_encodeI imm rs1 f3 rd op) (funct3Of_encodeI imm rs1 f3 rd op)).decode_eq

theorem decode_encodeS {c : RegIdx → RegIdx → BitVec 12 → Instr}
    (hrow : ∀ {w : Word}, opcodeOf w = op → funct3Of w = f3 → DecodesAs w (c (rs2Of w) (rs1Of w) (immSOf w)))
    (rs2 rs1 : RegIdx) (imm : BitVec 12) : decode (encodeS imm rs2 rs1 f3 op) = c rs2 rs1 imm := by
  simpa using (hrow (opcodeOf_encodeS imm rs2 rs1 f3 op) (funct3Of_encodeS imm rs2 rs1 f3 op)).decode_eq

/-- A branch is read back if its offset is even: bit 0 has no place in the word. -/
theorem decode_encodeB {c : RegIdx → RegIdx → BitVec 13 → Instr}
    (hrow : ∀ {w : Word}, opcodeOf w = op → funct3Of w = f3 → DecodesAs w (c (rs1Of w) (rs2Of w) (offsetBOf w)))
    (rs1 rs2 : RegIdx) {offset : BitVec 13} (even : evenOffsetB offset = true) :
    decode (encodeB offset rs2 rs1 f3 op) = c rs1 rs2 offset := by
  simpa [offsetBOf_encodeB _ _ _ _ _ even] using
    (hrow (opcodeOf_encodeB offset rs2 rs1 f3 op) (funct3Of_encodeB offset rs2 rs1 f3 op)).decode_eq

theorem decode_encodeU {c : RegIdx → BitVec 20 → Instr}
    (hrow : ∀ {w : Word}, opcodeOf w = op → DecodesAs w (c (rdOf w) (imm20Of w)))
    (rd : RegIdx) (imm20 : BitVec 20) : decode (encodeU imm20 rd op) = c rd imm20 := by
  simpa using (hrow (opcodeOf_encodeU imm20 rd op)).decode_eq

theorem decode_encodeJ {c : RegIdx → BitVec 21 → Instr}
    (hrow : ∀ {w : Word}, opcodeOf w = op → DecodesAs w (c (rdOf w) (offsetJOf w)))
    (rd : RegIdx) {offset : BitVec 21} (even : evenOffsetJ offset = true) :
    decode (encodeJ offset rd op) = c rd offset := by
  simpa [offsetJOf_encodeJ _ _ _ even] using (hrow (opcodeOf_encodeJ offset rd op)).decode_eq

end RoundTrip

/-! ### The opcode table and the decoder (rules R80, R81, R83) -/

/-- A word matches a row exactly when the decoder answers that row's instruction. -/
theorem matches_iff_decode_mnemonic {w : Word} {row : OpcodeRow} (hr : row ∈ opcodeTable) :
    w &&& row.mask = row.pattern ↔ (decode w).mnemonic = row.name := by
  constructor
  · intro h
    obtain ⟨i, hi, hname⟩ := opcodeTable_match hr h
    rw [hi.decode_eq, hname]
  · intro hname
    obtain hi | hinvalid := decode_cases w
    · obtain ⟨row', hr', hname', hmatch⟩ := hi.exists_row_match
      rwa [opcodeTable_name_injective row hr row' hr' (hname.symm.trans hname'.symm)]
    · rw [hinvalid] at hname
      exact absurd hname.symm (no_invalid_row row hr)

/-- The decoder answers `invalid` exactly for the words that match no row. -/
theorem decode_eq_invalid_iff (w : Word) :
    decode w = .invalid w ↔ ∀ row ∈ opcodeTable, w &&& row.mask ≠ row.pattern := by
  constructor
  · intro hinvalid row hr hmatch
    rw [matches_iff_decode_mnemonic hr, hinvalid] at hmatch
    exact no_invalid_row row hr hmatch.symm
  · intro hno
    obtain hi | hinvalid := decode_cases w
    · obtain ⟨row, hr, -, hmatch⟩ := hi.exists_row_match
      exact absurd hmatch (hno row hr)
    · exact hinvalid

theorem unmatched_iff (w : Word) : unmatched w = true ↔ ∀ row ∈ opcodeTable, w &&& row.mask ≠ row.pattern := by
  simp [unmatched, OpcodeRow.selects]

theorem encode_decode (w : Word) : encode (decode w) = w := by
  obtain hi | hinvalid := decode_cases w
  · exact hi.encode_eq
  · rw [hinvalid]; rfl

theorem wf_decode (w : Word) : (decode w).wf = true := by
  obtain hi | hinvalid := decode_cases w
  · exact hi.wf
  · rw [hinvalid]
    exact (unmatched_iff w).2 ((decode_eq_invalid_iff w).1 hinvalid)

/-! ### The immediate of a decoded word (rules R74 to R79) -/

/-- The immediate that the format of a name takes from a word: 0 where the format has none. -/
def Mnemonic.immIn (w : Word) : Mnemonic → Word
  | .jalr | .lb | .lh | .lw | .lbu | .lhu | .addi | .slti | .sltiu | .xori | .ori | .andi | .slli | .srli | .srai =>
    sextImm (immIOf w)
  | .sb | .sh | .sw => sextImm (immSOf w)
  | .beq | .bne | .blt | .bge | .bltu | .bgeu => sextOffsetB (offsetBOf w)
  | .lui | .auipc => upperImm (imm20Of w)
  | .jal => sextOffsetJ (offsetJOf w)
  | .add | .sub | .sll | .slt | .sltu | .xor | .srl | .sra | .or | .and | .mret | .invalid => 0#32

/-- The I-type immediate of a shift-immediate's word is its `funct7` over its shift amount (rule R79). -/
theorem immIOf_eq_append (w : Word) : immIOf w = funct7Of w ++ rs2Of w := by
  refine BitVec.eq_of_getLsbD_eq fun i hi => ?_
  simp only [immIOf, funct7Of, rs2Of, BitVec.getLsbD_append, BitVec.getLsbD_extractLsb']
  interval_cases i <;> simp

theorem shiftImm_fields {w : Word} {f7 : BitVec 7} (h7 : funct7Of w = f7) :
    shiftImm f7 (rs2Of w) = sextImm (immIOf w) := by
  rw [immIOf_eq_append, h7, shiftImm]

/-- The 20-bit field over twelve zeros is the word with its low twelve bits cleared (rule R77). -/
theorem upperImm_imm20Of (w : Word) : upperImm (imm20Of w) = w &&& 0xFFFFF000#32 := by
  refine BitVec.eq_of_getLsbD_eq fun i hi => ?_
  simp only [upperImm, imm20Of, BitVec.getLsbD_append, BitVec.getLsbD_extractLsb', BitVec.getLsbD_and]
  interval_cases i <;> simp

/-- The immediate of a decoded word is the one its name's format takes from it. -/
theorem DecodesAs.imm_eq {w : Word} {i : Instr} (h : DecodesAs w i) : i.imm = i.mnemonic.immIn w := by
  cases h
  case slli h7 | srli h7 | srai h7 => exact shiftImm_fields h7
  all_goals rfl

theorem decode_imm_eq (w : Word) : (decode w).imm = (decode w).mnemonic.immIn w := by
  obtain hi | hinvalid := decode_cases w
  · exact hi.imm_eq
  · rw [hinvalid]; rfl

/-! ### The obligations -/

/-- Settles O2, by the round trip of each format. -/
theorem decodingAnEncodedInstructionGivesItBack : Obligations.DecodingAnEncodedInstructionGivesItBack := by
  intro i hwf
  cases i with
  | lui rd imm20 => exact decode_encodeU DecodesAs.lui rd imm20
  | auipc rd imm20 => exact decode_encodeU DecodesAs.auipc rd imm20
  | jal rd offset => exact decode_encodeJ DecodesAs.jal rd hwf
  | jalr rd rs1 imm => exact decode_encodeI DecodesAs.jalr rd rs1 imm
  | beq rs1 rs2 offset => exact decode_encodeB DecodesAs.beq rs1 rs2 hwf
  | bne rs1 rs2 offset => exact decode_encodeB DecodesAs.bne rs1 rs2 hwf
  | blt rs1 rs2 offset => exact decode_encodeB DecodesAs.blt rs1 rs2 hwf
  | bge rs1 rs2 offset => exact decode_encodeB DecodesAs.bge rs1 rs2 hwf
  | bltu rs1 rs2 offset => exact decode_encodeB DecodesAs.bltu rs1 rs2 hwf
  | bgeu rs1 rs2 offset => exact decode_encodeB DecodesAs.bgeu rs1 rs2 hwf
  | lb rd rs1 imm => exact decode_encodeI DecodesAs.lb rd rs1 imm
  | lh rd rs1 imm => exact decode_encodeI DecodesAs.lh rd rs1 imm
  | lw rd rs1 imm => exact decode_encodeI DecodesAs.lw rd rs1 imm
  | lbu rd rs1 imm => exact decode_encodeI DecodesAs.lbu rd rs1 imm
  | lhu rd rs1 imm => exact decode_encodeI DecodesAs.lhu rd rs1 imm
  | sb rs2 rs1 imm => exact decode_encodeS DecodesAs.sb rs2 rs1 imm
  | sh rs2 rs1 imm => exact decode_encodeS DecodesAs.sh rs2 rs1 imm
  | sw rs2 rs1 imm => exact decode_encodeS DecodesAs.sw rs2 rs1 imm
  | addi rd rs1 imm => exact decode_encodeI DecodesAs.addi rd rs1 imm
  | slti rd rs1 imm => exact decode_encodeI DecodesAs.slti rd rs1 imm
  | sltiu rd rs1 imm => exact decode_encodeI DecodesAs.sltiu rd rs1 imm
  | xori rd rs1 imm => exact decode_encodeI DecodesAs.xori rd rs1 imm
  | ori rd rs1 imm => exact decode_encodeI DecodesAs.ori rd rs1 imm
  | andi rd rs1 imm => exact decode_encodeI DecodesAs.andi rd rs1 imm
  | slli rd rs1 shamt => exact decode_encodeR DecodesAs.slli rd rs1 shamt
  | srli rd rs1 shamt => exact decode_encodeR DecodesAs.srli rd rs1 shamt
  | srai rd rs1 shamt => exact decode_encodeR DecodesAs.srai rd rs1 shamt
  | add rd rs1 rs2 => exact decode_encodeR DecodesAs.add rd rs1 rs2
  | sub rd rs1 rs2 => exact decode_encodeR DecodesAs.sub rd rs1 rs2
  | sll rd rs1 rs2 => exact decode_encodeR DecodesAs.sll rd rs1 rs2
  | slt rd rs1 rs2 => exact decode_encodeR DecodesAs.slt rd rs1 rs2
  | sltu rd rs1 rs2 => exact decode_encodeR DecodesAs.sltu rd rs1 rs2
  | xor rd rs1 rs2 => exact decode_encodeR DecodesAs.xor rd rs1 rs2
  | srl rd rs1 rs2 => exact decode_encodeR DecodesAs.srl rd rs1 rs2
  | sra rd rs1 rs2 => exact decode_encodeR DecodesAs.sra rd rs1 rs2
  | or rd rs1 rs2 => exact decode_encodeR DecodesAs.or rd rs1 rs2
  | and rd rs1 rs2 => exact decode_encodeR DecodesAs.and rd rs1 rs2
  | mret => exact (DecodesAs.mret rfl).decode_eq
  | invalid word => exact (decode_eq_invalid_iff word).2 ((unmatched_iff word).1 hwf)

/-- Settles O3: the word of a row is put together again from its fields, and `invalid` carries the word itself. -/
theorem encodingADecodedWordGivesItBack : Obligations.EncodingADecodedWordGivesItBack :=
  fun w => ⟨encode_decode w, wf_decode w⟩

/-- Settles O4: a row's mask and match test the fields that the decoder tests. -/
theorem wordMatchesARowIffItDecodesToIt : Obligations.WordMatchesARowIffItDecodesToIt :=
  fun _ _ => matches_iff_decode_mnemonic

/-- Settles O5: two rows that a word matches have the name it decodes to, and the table has one row per name. -/
theorem noWordMatchesTwoRows : Obligations.NoWordMatchesTwoRows := by
  refine ⟨rfl, fun w row hr row' hr' h h' => opcodeTable_name_injective row hr row' hr' ?_⟩
  rw [← (matches_iff_decode_mnemonic hr).1 h, (matches_iff_decode_mnemonic hr').1 h']

/-- Settles O6: `invalid` carries the word, so its record has the word's fields. -/
theorem unmatchedWordIsTheInvalidRecord : Obligations.UnmatchedWordIsTheInvalidRecord := by
  refine fun w => ⟨(decode_eq_invalid_iff w).symm, fun hinvalid => ?_⟩
  rw [decodeRecord, hinvalid]
  rfl

/-- Settles O7: the register fields by the round trip of the word, the immediate by its format. -/
theorem recordHoldsTheFieldsOfTheWord : Obligations.RecordHoldsTheFieldsOfTheWord := by
  intro w
  have himm : (decodeRecord w).imm = (decodeRecord w).name.immIn w := decode_imm_eq w
  refine ⟨congrArg rdOf (encode_decode w), congrArg rs1Of (encode_decode w), congrArg rs2Of (encode_decode w), ?_⟩
  rw [himm]
  generalize (decodeRecord w).name = name
  cases name <;> simp [Mnemonic.immIn, sextImm, sextOffsetB, sextOffsetJ, immIOf, immSOf, offsetBOf, offsetJOf,
    upperImm_imm20Of]

/-- Settles O1: each word has the opcode, `funct3` and `funct7` of its row, and the last has those of none. -/
theorem wordsOfEachFamilyDecode : Obligations.WordsOfEachFamilyDecode := by
  unfold Obligations.WordsOfEachFamilyDecode
  decide

end Sys2Proof
end

section
/-! PROOF. What every step and every operation of the host keeps: the invariant (Safety.lean), the device map and the number
of registers (10_state.md section 1; 20_memory.md rules R36, R46). -/

namespace Sys2Proof.Machine

open Sys2Proof.Statements

/-! ### The shape of a device (20_memory.md rule R36) -/

@[simp] theorem deviceShape_read (d : Device) (a : Nat) (w : Width) (sg : Bool) :
    deviceShape (d.read a w sg).2 = deviceShape d := by
  obtain ⟨base, size, body⟩ := d
  cases body <;> rfl

@[simp] theorem deviceShape_write (d : Device) (a : Nat) (w : Width) (v : Word) :
    deviceShape (d.write a w v) = deviceShape d := by
  obtain ⟨base, size, body⟩ := d
  cases body <;> rfl

@[simp] theorem deviceShape_reset (d : Device) : deviceShape d.reset = deviceShape d := by
  obtain ⟨base, size, body⟩ := d
  cases body <;> rfl

theorem State.busRead_deviceShape (s : State) (a : Word) (w : Width) (sg : Bool) :
    (s.busRead a w sg).2.devices.map deviceShape = s.devices.map deviceShape := by
  obtain ⟨-, h⟩ | ⟨before, d, rest, hds, -, -, h⟩ := s.busRead_cases a w sg
  · rw [h]
  · simp [h, hds]

theorem State.busWrite_deviceShape (s : State) (a : Word) (w : Width) (v : Word) :
    (s.busWrite a w v).devices.map deviceShape = s.devices.map deviceShape := by
  obtain ⟨-, h⟩ | ⟨-, h⟩ := s.busWrite_cases a w v
  · rw [h]
  · rw [h, writeAll, List.map_map]
    refine List.map_congr_left fun d _ => ?_
    simp only [Function.comp]
    split
    · exact deviceShape_write d _ _ _
    · rfl

theorem WritebackOf.deviceShape {s s' : State} (h : WritebackOf s s') :
    s'.devices.map deviceShape = s.devices.map deviceShape := by
  cases h with
  | nothing => rfl
  | register => rw [State.writeReg_devices]
  | load => rw [State.writeReg_devices, State.busRead_deviceShape]
  | store => rw [State.busWrite_deviceShape]

/-! ### What a step leaves in registers and devices -/

/-- The registers and devices after an instruction are those of a writeback: the control-flow update touches neither. -/
theorem exec_writebackOf {i : Instr} {s t : State} (h : exec i s = .next t) :
    ∃ s', WritebackOf s s' ∧ SameRegistersAndBus s' t := by
  obtain rfl := Host.Outcome.next.inj ((exec_eq_engine i s).symm.trans h)
  exact ⟨_, engineWriteback_writebackOf i.record s, engine_sameRegistersAndBus i.record s⟩

theorem State.fetch_deviceShape (s : State) : s.fetch.2.devices.map deviceShape = s.devices.map deviceShape :=
  s.busRead_deviceShape s.pc .word false

theorem step_keeps_deviceMap {s t : State} (h : step s = .next t) :
    t.devices.map deviceShape = s.devices.map deviceShape ∧ t.registerCount = s.registerCount := by
  obtain ⟨s', hwb, hsame⟩ := exec_writebackOf h
  obtain ⟨hfetch, -⟩ := s.fetch_control
  obtain ⟨-, -, -, -, hcount⟩ := hwb.control
  constructor
  · rw [hsame.devices, hwb.deviceShape, s.fetch_deviceShape]
  · rw [State.registerCount_congr hsame.regs, hcount, State.registerCount_congr hfetch]

theorem step_keeps_inv {s t : State} (hs : s.Inv) (h : step s = .next t) : t.Inv := by
  obtain ⟨-, hdevices⟩ := hs
  obtain ⟨v, hpc⟩ := exec_pc_aligned h
  obtain ⟨s', hwb, hsame⟩ := exec_writebackOf h
  have hfetch : s.fetch.2.devices.all Device.wf = true := State.wf_busRead hdevices s.pc .word false
  constructor
  · rw [hpc, alignPc_alignPc]
  · rw [hsame.devices]
    exact hwb.wf hfetch

/-! ### The host's operations (70_reset_and_hazards.md rule R267) -/

/-- What an operation of the host can do, one case per operation that is not refused. -/
inductive HostEffect (s : State) : HostOp → State → Prop where
  | coreReset : HostEffect s .coreReset s.coreReset
  | busReset : HostEffect s .busReset s.busReset
  | addMemory {base : Word} {size : Nat} (hrange : Device.rangeOk base.toNat size = true) :
      HostEffect s (.addMemory base size) (s.addDevice ⟨base.toNat, size, .memory []⟩)
  | addPeripheral {base : Word} {size : Nat} (id : Nat) (st : PeriphState)
      (hrange : Device.rangeOk base.toNat size = true) :
      HostEffect s (.addPeripheral base size id st) (s.addDevice ⟨base.toNat, size, .peripheral id st⟩)
  | busRead (a : Word) (n : Nat) (sg : Bool) (w : Width) : HostEffect s (.busRead a n sg) (s.busRead a w sg).2
  | busWrite (a : Word) (n : Nat) (v : Word) (w : Width) : HostEffect s (.busWrite a n v) (s.busWrite a w v)

/-- A device is added if its range is admitted, and only then. -/
theorem addChecked_eq_next {s t : State} {base : Word} {size : Nat} {body : DeviceBody}
    (h : addChecked s base size body = .next t) :
    Device.rangeOk base.toNat size = true ∧ s.addDevice ⟨base.toNat, size, body⟩ = t := by
  unfold addChecked at h
  split at h
  · exact ⟨‹_›, Host.Outcome.next.inj h⟩
  · cases h

theorem hostStep_effect {op : HostOp} {s t : State} (h : hostStep op s = .next t) : HostEffect s op t := by
  cases op with
  | coreReset => cases h; exact .coreReset
  | busReset => cases h; exact .busReset
  | addMemory base size =>
    obtain ⟨hrange, rfl⟩ := addChecked_eq_next h
    exact .addMemory hrange
  | addPeripheral base size id st =>
    obtain ⟨hrange, rfl⟩ := addChecked_eq_next h
    exact .addPeripheral id st hrange
  | busRead a n sg =>
    simp only [hostStep] at h
    split at h
    · cases h; exact .busRead a n sg _
    · cases h
  | busWrite a n v =>
    simp only [hostStep] at h
    split at h
    · cases h; exact .busWrite a n v _
    · cases h

theorem alignPc_resetVector : alignPc Config.resetVector = Config.resetVector := by decide

/-- An appended device that the model admits keeps the invariant. -/
theorem State.inv_addDevice {s : State} (hs : s.Inv) {d : Device} (hd : d.wf = true) : (s.addDevice d).Inv := by
  obtain ⟨hpc, hdevices⟩ := hs
  exact ⟨hpc, by simp [hdevices, hd]⟩

theorem HostEffect.keeps_inv {op : HostOp} {s t : State} (h : HostEffect s op t) (hs : s.Inv) : t.Inv := by
  have ⟨hpc, hdevices⟩ := hs
  cases h with
  | coreReset => exact ⟨alignPc_resetVector, hdevices⟩
  | busReset =>
    refine ⟨hpc, ?_⟩
    simp only [State.busReset_devices, List.all_map, List.all_eq_true, Function.comp] at hdevices ⊢
    exact fun d hd => Device.wf_reset (hdevices d hd)
  | addMemory hrange => exact State.inv_addDevice hs (by simp [Device.wf, hrange, Memory.wf, Memory.wfFrom])
  | addPeripheral id st hrange => exact State.inv_addDevice hs (by simp [Device.wf, hrange])
  | busRead a n sg w => exact ⟨by simpa using hpc, State.wf_busRead hdevices a w sg⟩
  | busWrite a n v w => exact ⟨by simpa using hpc, State.wf_busWrite hdevices a w v⟩

/-- A device's admission does not look at a peripheral's own state, which is all that the environment changes. -/
theorem Between.keeps_inv {s t : State} (h : Between s t) (hs : s.Inv) : t.Inv := by
  induction h with
  | nothing => exact hs
  | host op hstep _ ih => exact ih ((hostStep_effect hstep).keeps_inv hs)
  | env before after base size id st st' hds _ _ ih =>
    obtain ⟨hpc, hdevices⟩ := hs
    rw [hds] at hdevices
    exact ih ⟨hpc, by simpa [Device.wf] using hdevices⟩

theorem Reaches.keeps_inv {n : Nat} {s t : State} (h : Reaches n s t) (hs : s.Inv) : t.Inv := by
  induction h with
  | start hbetween => exact hbetween.keeps_inv hs
  | stepped _ hstep hbetween ih => exact hbetween.keeps_inv (step_keeps_inv (ih hs) hstep)

/-! ### The bytes and registers after a reset (70_reset_and_hazards.md rules R260, R262) -/

@[simp] theorem Device.byteAt_reset (d : Device) (x : Nat) : d.reset.byteAt x = d.byteAt x := by
  obtain ⟨base, size, body⟩ := d
  cases body <;> rfl

/-- A register file of zeros reads 0 at every index. -/
theorem State.getX_of_zeros {s : State} {n : Nat} (h : s.regs = List.replicate n 0#32) (j : Nat) : s.getX j = 0#32 := by
  unfold State.getX
  split_ifs
  · rfl
  · rfl
  · rw [h, List.getD_eq_getElem?_getD, List.getElem?_getD_replicate_default_eq]

/-! ### Access sizes and ranges (20_memory.md rules R31, R36) -/

/-- The sizes of rule R31 are the ones `Width.ofBytes` has a width for. -/
theorem Width.ofBytes_of_mem {w : Width} {n : Nat} (h : (w, n) ∈ [(Width.byte, 1), (.half, 2), (.word, 4)]) :
    Width.ofBytes n = some w := by
  obtain rfl := Width.bytes_of_mem h
  cases w <;> rfl

theorem Width.ofBytes_of_not_mem {n : Nat} (h : n ∉ [1, 2, 4]) : Width.ofBytes n = none := by
  simp only [List.mem_cons, List.not_mem_nil, or_false, not_or] at h
  obtain ⟨h1, h2, h4⟩ := h
  rw [Width.ofBytes, if_neg h1, if_neg h2, if_neg h4]

theorem Device.rangeOk_eq_true_iff (base size : Nat) :
    Device.rangeOk base size = true ↔ 1 ≤ size ∧ base + size ≤ 2 ^ 32 := by
  simp [Device.rangeOk]

/-- The ranges that are not admitted: an empty one, and one past the address space. -/
theorem Device.rangeOk_eq_false_iff (base size : Nat) :
    Device.rangeOk base size = false ↔ size = 0 ∨ 2 ^ 32 < base + size := by
  rw [← Bool.not_eq_true, Device.rangeOk_eq_true_iff]
  omega

theorem addChecked_of_rangeOk {s : State} {base : Word} {size : Nat} (body : DeviceBody)
    (h : Device.rangeOk base.toNat size = true) :
    addChecked s base size body = .next (s.addDevice ⟨base.toNat, size, body⟩) := if_pos h

theorem addChecked_of_not_rangeOk {s : State} {base : Word} {size : Nat} (body : DeviceBody)
    (h : Device.rangeOk base.toNat size = false) :
    addChecked s base size body = .refused (.deviceRange base.toNat size) := if_neg (by simp [h])

/-! ### The obligations -/

/-- Settles O53: the control-flow update aligns `pc`, and each access keeps the devices as the model admits them. -/
theorem everyStepKeepsTheInvariant : Obligations.EveryStepKeepsTheInvariant :=
  fun _ _ => step_keeps_inv

/-- Settles O54, operation by operation, and by induction on what happens between two steps. -/
theorem hostAndEnvironmentKeepTheInvariant : Obligations.HostAndEnvironmentKeepTheInvariant :=
  ⟨fun _ _ _ hs h => (hostStep_effect h).keeps_inv hs, fun _ _ hs h => h.keeps_inv hs⟩

/-- Settles O55, by induction on the run. -/
theorem everyRunKeepsTheInvariant : Obligations.EveryRunKeepsTheInvariant :=
  fun _ _ _ hs h => h.keeps_inv hs

/-- Settles O56: no access changes the shape of a device. -/
theorem stepsKeepTheDeviceMap : Obligations.StepsKeepTheDeviceMap :=
  fun _ _ => step_keeps_deviceMap

/-- Settles O52: `pc` is 0, and the one memory of the reference platform is empty. -/
theorem resetMeetsTheInvariant : Obligations.ResetMeetsTheInvariant := ⟨rfl, rfl⟩

/-- Settles O47: a reset keeps a device's shape and a flat memory's bytes. -/
theorem busResetResetsEveryDevice : Obligations.BusResetResetsEveryDevice :=
  fun s => ⟨rfl, by simp, fun address => by simp [State.bytesAt]⟩

/-- Settles O48: the registers are a list of zeros, and the one memory of the reference platform lists no byte. -/
theorem resetStateIsAllZero : Obligations.ResetStateIsAllZero := by
  refine ⟨rfl, State.getX_of_zeros rfl, rfl, rfl, rfl, rfl, fun address => ?_⟩
  change [Device.byteAt ⟨0, 0x10000, .memory []⟩ address] = _
  simp [Device.byteAt_memory, Memory.byte_nil]

/-- Settles O49: `Core.reset` writes no field but those of the core. -/
theorem coreResetClearsTheCoreOnly : Obligations.CoreResetClearsTheCoreOnly := by
  refine fun s => ⟨s.coreReset, rfl, ?_, State.getX_of_zeros rfl, rfl, rfl, rfl, rfl, rfl, fun _ => rfl⟩
  simp [State.registerCount, State.coreReset]

/-- Settles O50, by the two checks: the range of a device, and the size of an access. -/
theorem hostOperationsAreCheckedForRangeAndSize : Obligations.HostOperationsAreCheckedForRangeAndSize := by
  refine ⟨fun s base size id st hsize htop => ?_, fun s base size id st hbad => ?_,
    fun s address v bytes sg hbytes => ?_, fun s address v w n sg hn => ?_⟩
  · have hrange := (Device.rangeOk_eq_true_iff base.toNat size).2 ⟨hsize, htop⟩
    exact ⟨addChecked_of_rangeOk _ hrange, addChecked_of_rangeOk _ hrange⟩
  · have hrange := (Device.rangeOk_eq_false_iff base.toNat size).2 hbad
    exact ⟨addChecked_of_not_rangeOk _ hrange, addChecked_of_not_rangeOk _ hrange⟩
  · simp [hostRead, hostStep, Width.ofBytes_of_not_mem hbytes]
  · simp [hostRead, hostStep, Width.ofBytes_of_mem hn]

end Sys2Proof.Machine
end

section
/-! PROOF. The step as a whole (40_execution_engine.md): its agreement with the tag engine, its trace, the fetch, and the
handler state (60_exceptions.md). -/

namespace Sys2Proof.Machine

open Sys2Proof.Statements

/-! ### The trace passes through the engine unread (section 2) -/

/-- The state with another trace. -/
def State.withTrace (s : State) (x : Option Trace) : State := { s with trace := x }

theorem State.busRead_withTrace (s : State) (x : Option Trace) (a : Word) (w : Width) (sg : Bool) :
    (s.withTrace x).busRead a w sg = ((s.busRead a w sg).1, (s.busRead a w sg).2.withTrace x) := by
  simp only [State.busRead, State.withTrace]
  split <;> rfl

theorem State.busWrite_withTrace (s : State) (x : Option Trace) (a : Word) (w : Width) (v : Word) :
    (s.withTrace x).busWrite a w v = (s.busWrite a w v).withTrace x := by
  simp only [State.busWrite, apply_ite (State.withTrace · x)]
  rfl

theorem State.writeReg_withTrace (s : State) (x : Option Trace) (rd : RegIdx) (v : Word) :
    (s.withTrace x).writeReg rd v = (s.writeReg rd v).withTrace x := by
  simp only [State.writeReg, State.setX, apply_ite (State.withTrace · x)]
  rfl

theorem State.loadTo_withTrace (s : State) (x : Option Trace) (rd : RegIdx) (a : Word) (w : Width) (sg : Bool) :
    (s.withTrace x).loadTo rd a w sg = ((s.loadTo rd a w sg).1, (s.loadTo rd a w sg).2.withTrace x) := by
  simp only [State.loadTo, State.busRead_withTrace, State.writeReg_withTrace]

theorem State.writeback_withTrace (s : State) (x : Option Trace) (wb : WbMem) (rd : RegIdx) (r x2 : Word) :
    (s.withTrace x).writeback wb rd r x2 = ((s.writeback wb rd r x2).1, (s.writeback wb rd r x2).2.withTrace x) := by
  cases wb
  case none => rfl
  case r => exact congrArg (Prod.mk _) (s.writeReg_withTrace x rd r)
  case pcPlus => exact congrArg (Prod.mk _) (s.writeReg_withTrace x rd s.incPc)
  case lb | lh | lw | lbu | lhu => exact s.loadTo_withTrace x rd r _ _
  case sb | sh | sw => exact congrArg (Prod.mk _) (s.busWrite_withTrace x r _ x2)

theorem State.controlFlow_withTrace (s : State) (x : Option Trace) (name : Mnemonic) (taken : Bool) (r : Word) :
    (s.withTrace x).controlFlow name taken r = (s.controlFlow name taken r).withTrace x := by
  simp only [State.controlFlow, apply_ite (State.withTrace · x)]
  rfl

/-- The engine ends by emitting its own trace, so the one it finds is lost. -/
theorem engine_withTrace (d : Decoded) (s : State) (x : Option Trace) : engine d (s.withTrace x) = engine d s := by
  have hwriteback : engineWriteback d (s.withTrace x) =
      ((engineWriteback d s).1, (engineWriteback d s).2.withTrace x) :=
    s.writeback_withTrace x d.tags.wbMem d.rd (engineResult d s) (s.readReg d.rs2)
  have hvalues : engineValues d (s.withTrace x) = engineValues d s := by
    simp only [engineValues, hwriteback]
    rfl
  rw [engine_eq, engine_eq, hvalues, hwriteback, State.controlFlow_withTrace]
  rfl

/-- The fetch overwrites the sampled values, and hands the trace on. -/
theorem State.fetch_of_samples (s : State) (x : Option Trace) (sample error : Bool) :
    { s with trace := x, irqSample := sample, fetchError := error }.fetch = (s.fetch.1, s.fetch.2.withTrace x) := by
  simp only [State.fetch, State.busRead]
  split <;> rfl

/-! ### The fetch (rules R101, R114) -/

/-- A device's unsigned extension leaves what a flat memory returns as it is (20_memory.md rule R38). -/
theorem extendRaw_localRead (m : Memory) (offset : Nat) (w : Width) :
    extendRaw w false (m.localRead offset w) = m.localRead offset w := by
  cases w <;> simp [extendRaw, unsignedSlice, Memory.localRead, Width.bytes]

/-- The unsigned read that a flat memory answers: its bytes, and no device changed. -/
theorem State.busRead_of_answeredByMemory {s : State} {a : Word} {w : Width} {d : Device} {data : Memory}
    (h : AnsweredByMemory s a w d data) :
    s.busRead a w false = (data.localRead (a.toNat - d.base) w, { s with busError := false }) := by
  obtain ⟨before, rest, hds, hbefore, hd, hdata⟩ := h
  rw [State.busRead_memory false hds hbefore hd hdata, extendRaw_localRead]

/-- The word a fetch finds is a bus read at `pc`. -/
theorem State.fetch_fst (s : State) : s.fetch.1 = (s.busRead s.pc .word false).1 := rfl

/-- The fetch that a flat memory answers. -/
theorem State.fetch_of_answeredByMemory {s : State} {d : Device} {data : Memory}
    (h : AnsweredByMemory s s.pc .word d data) :
    s.fetch = (data.localRead (s.pc.toNat - d.base) .word,
      { s with busError := false, irqSample := s.busIrq, fetchError := false }) := by
  simp only [State.fetch, State.busRead_of_answeredByMemory h]

/-- The fetch that no device answers. -/
theorem State.fetch_of_noDeviceAccepts {s : State} (h : NoDeviceAccepts s s.pc .word) :
    s.fetch = (0#32, { s with busError := true, irqSample := s.busIrq, fetchError := true }) := by
  simp only [State.fetch, State.busRead_of_noDeviceAccepts false h]

/-! ### The handler state (60_exceptions.md section 6) -/

/-- What a step can do to the handler state, and what its trace shows: interrupt entry, the return of `mret`, or nothing
(rule R110, with the line as it was before the fetch). -/
theorem step_handler_cases (s : State) : ∃ t tr, step s = .next t ∧ t.trace = some tr ∧
    tr.irq = (s.busIrq && !s.irqState) ∧ tr.instr = decodeRecord (s.busRead s.pc .word false).1 ∧
    ((s.busIrq = true ∧ s.irqState = false ∧ t.pc = 4#32 ∧ t.irqState = true) ∨
      (decode (s.busRead s.pc .word false).1 = .mret ∧ t.pc = s.mepc &&& 0xFFFFFFFC#32 ∧ t.mepc = s.mepc ∧
        t.irqState = false) ∨
      (decode (s.busRead s.pc .word false).1 ≠ .mret ∧ t.mepc = s.mepc ∧ t.irqState = s.irqState)) := by
  obtain ⟨t, tr, hstep, htrace, -, -, hirq, hinstr, -⟩ := stepSamplesThenFetches s
  obtain ⟨t', tr', hexec, htrace', -, hflow⟩ := controlFlowFollowsThePriorityOrder (decode s.fetch.1) s.fetch.2
  obtain rfl := Host.Outcome.next.inj (hstep.symm.trans hexec)
  obtain rfl := Option.some.inj (htrace.symm.trans htrace')
  obtain ⟨-, -, hmepc, hstate, hsample, -⟩ := s.fetch_control
  rw [hmepc, hstate, hsample] at hflow
  refine ⟨t, tr, hstep, htrace, hirq, hinstr, ?_⟩
  by_cases henter : s.busIrq = true ∧ s.irqState = false
  · rw [if_pos henter] at hflow
    obtain ⟨hpc, -, hhandler⟩ := hflow
    exact .inl ⟨henter.1, henter.2, hpc, hhandler⟩
  · rw [if_neg henter] at hflow
    by_cases hmret : decode s.fetch.1 = .mret
    · rw [if_pos hmret] at hflow
      exact .inr (.inl ⟨hmret, hflow⟩)
    · rw [if_neg hmret] at hflow
      refine .inr (.inr ⟨hmret, ?_⟩)
      split at hflow <;> exact hflow.2

/-- Of the host's operations only a core reset writes the handler state, and that by the open parameter. -/
theorem HostEffect.irqState_eq {op : HostOp} {s t : State} (h : HostEffect s op t) :
    t.irqState = if op = .coreReset ∧ Config.resetClearsIrqState = true then false else s.irqState := by
  cases h with
  | coreReset => simp [State.coreReset]
  | busReset | addMemory | addPeripheral | busRead | busWrite => simp

/-! ### The control-flow update after an instruction that is not `mret` -/

/-- A writeback followed by the control-flow update goes on at the target, as rule R110 says. -/
theorem continuesAt_of_writeback {s s' : State} (h : WritebackOf s s') (taken : Bool) (r : Word) (tr : Trace) :
    ContinuesAt s ((s'.advance taken r).emit tr) (if taken then r else s.pc + 4#32) := by
  obtain ⟨hpc, hmepc, hstate, hsample, -⟩ := h.control
  have hflow := s'.advance_control taken r
  have htarget : s'.target taken r = if taken then r else s.pc + 4#32 := by rw [State.target, State.incPc, hpc]
  rwa [hsample, hstate, hmepc, htarget] at hflow

/-- A control-flow update and a trace leave registers and bus as they were. -/
theorem sameRegistersAndBus_advance (s : State) (taken : Bool) (r : Word) (tr : Trace) :
    SameRegistersAndBus s ((s.advance taken r).emit tr) :=
  ⟨s.advance_regs taken r, s.advance_devices taken r, s.advance_busError taken r⟩

/-- The trace that a step emits shows the values it was built from (rule R112). -/
theorem traceShows_emit (s t : State) (d : Decoded) (v : StepValues) :
    TraceShows (t.emit (s.traceOf d v)) v.a v.b v.r v.l v.taken v.loadStoreError :=
  ⟨_, rfl, rfl, rfl, rfl, rfl, rfl, rfl⟩

/-- `invalid` is a no-operation that advances `pc` (44_system.md rule R212). -/
theorem exec_invalid (word : Word) (s : State) : ∃ t, exec (.invalid word) s = .next t ∧
    t.trace = some (s.traceOf (Instr.invalid word).record noValues) ∧ RegistersKept s t ∧ BusUntouched s t ∧
    ContinuesAt s t (s.pc + 4#32) := by
  have hsame := sameRegistersAndBus_advance s false 0#32 (s.traceOf (Instr.invalid word).record noValues)
  exact ⟨_, rfl, rfl, hsame.registersKept, hsame.busUntouched, continuesAt_of_writeback .nothing false 0#32 _⟩

/-- The value loaded is 0 for every tag but those of the loads (rule R109). -/
theorem State.writeback_loaded {wb : WbMem} (h : wb ∉ [WbMem.lb, .lh, .lw, .lbu, .lhu]) (s : State) (rd : RegIdx)
    (r x2 : Word) : (s.writeback wb rd r x2).1 = 0#32 := by
  cases wb
  case lb | lh | lw | lbu | lhu => simp at h
  case r | pcPlus | sb | sh | sw | none => rfl

/-! ### The obligations -/

/-- Settles O14, shape by shape for the instructions, and for a step by the instruction its fetch finds. -/
theorem meaningsAgreeWithTheTagEngine : Obligations.MeaningsAgreeWithTheTagEngine :=
  ⟨exec_eq_engine, step_eq_engine⟩

/-- Settles O19: the trace is the engine's, whose operands, result and decision are those the tags select. -/
theorem traceShowsTheValuesOfTheStep : Obligations.TraceShowsTheValuesOfTheStep := by
  intro i s
  refine ⟨_, _, exec_eq_engine i s, engine_trace i.record s, rfl, rfl, rfl, rfl, rfl, rfl, rfl, rfl, rfl, rfl, rfl, ?_⟩
  exact fun hload => State.writeback_loaded hload s _ _ _

/-- Settles O20: the fetch overwrites the sampled values, and the engine the trace. -/
theorem stepIgnoresTheTraceAndOldSamples : Obligations.StepIgnoresTheTraceAndOldSamples := by
  intro s x sample error
  rw [step_eq_engine, step_eq_engine, State.fetch_of_samples, engine_withTrace]

/-- Settles O21: the word 0 of a failed fetch is `invalid`, a no-operation. -/
theorem failedFetchOnlyAdvances : Obligations.FailedFetchOnlyAdvances := by
  intro s hno
  have hdecode : decode 0#32 = .invalid 0#32 := by decide
  obtain ⟨t, hexec, htrace, hregs, ⟨hdevices, herror, -⟩, hcontrol⟩ := exec_invalid 0#32
    { s with busError := true, irqSample := s.busIrq, fetchError := true }
  refine ⟨t, _, ?_, htrace, hregs, hdevices, herror, hcontrol, rfl, rfl, rfl, rfl⟩
  rw [step_eq, State.fetch_of_noDeviceAccepts hno, hdecode, hexec]

/-- Settles O39: `invalid` only advances, and each of the words listed matches no row. -/
theorem unrecognisedWordsDoNothing : Obligations.UnrecognisedWordsDoNothing := by
  refine ⟨fun w s => ?_, ?_⟩
  · obtain ⟨t, hexec, htrace, hregs, hbus, hcontrol⟩ := exec_invalid w s
    exact ⟨t, hexec, hregs, hbus, hcontrol, _, htrace, rfl, rfl, rfl, rfl, rfl, rfl⟩
  · simp only [List.forall_mem_cons]
    refine ⟨?_, ?_, ?_, ?_, ?_, ?_, ?_, ?_, ?_, ?_, ?_, ?_, ?_, ?_, List.forall_mem_nil _⟩ <;> decide

/-- Settles O23: in the handler a step does not enter the interrupt, and only `mret` clears the state. -/
theorem handlerIsNotReentered : Obligations.HandlerIsNotReentered := by
  intro s hin
  obtain ⟨t, tr, hstep, htrace, hirq, hinstr, hcases⟩ := step_handler_cases s
  have hname : tr.instr.name = .mret ↔ decode (s.busRead s.pc .word false).1 = .mret := by
    rw [hinstr]
    exact Instr.record_name_eq_mret_iff _
  refine ⟨t, tr, hstep, htrace, by simp [hirq, hin], ?_⟩
  obtain ⟨-, hout, -⟩ | ⟨hmret, -, hmepc, hstate⟩ | ⟨hmret, hmepc, hstate⟩ := hcases
  · exact absurd (hin.symm.trans hout) (by decide)
  · exact ⟨hmepc, by rw [if_pos (hname.2 hmret), hstate]⟩
  · exact ⟨hmepc, by rw [if_neg (mt hname.1 hmret), hstate, hin]⟩

/-- Settles O24: the three cases of a step's control flow, and the effect of each host operation. -/
theorem onlyEntryAndMretChangeTheHandlerState : Obligations.OnlyEntryAndMretChangeTheHandlerState := by
  refine ⟨fun s t hstep hout hin => ?_, fun s t hstep hin hout => ?_, fun _ _ _ h => (hostStep_effect h).irqState_eq⟩
  all_goals
    obtain ⟨t', tr, hstep', -, -, -, hcases⟩ := step_handler_cases s
    obtain rfl := Host.Outcome.next.inj (hstep.symm.trans hstep')
    obtain ⟨hline, -, hpc, hentered⟩ | ⟨hmret, hpc, -, hleft⟩ | ⟨-, -, hkept⟩ := hcases
  · exact ⟨s.busIrq_iff.1 hline, hpc⟩
  · simp [hleft] at hin
  · simp [hkept, hout] at hin
  · simp [hentered] at hout
  · exact ⟨hmret, hpc⟩
  · simp [hkept, hin] at hout

/-- Settles O12, by the two answers of the fetch: any word that the bus returns, and the bytes of a flat memory. -/
theorem stepRunsTheDecodedInstruction : Obligations.StepRunsTheDecodedInstruction := by
  refine ⟨fun s bus word i hread hdecode => ?_, fun s d data i hmem hdecode => ?_⟩
  · simp only [step_eq, State.fetch, hread, hdecode, State.busIrq]
  · have hword : decode (data.localRead (s.pc.toNat - d.base) .word) = i :=
      congrArg Prod.fst (Except.ok.inj hdecode)
    rw [step_eq, State.fetch_of_answeredByMemory hmem, hword]
    rfl

/-- Settles O13: an instruction, and so a step, answers what the engine computes. -/
theorem everyStepCompletes : Obligations.EveryStepCompletes :=
  ⟨fun i s => ⟨_, exec_eq_engine i s⟩, fun s => ⟨_, step_eq_engine s⟩⟩

end Sys2Proof.Machine
end

section
/-! PROOF. The instructions family by family (41_integer_computational.md, 42_control_transfer.md, 43_load_store.md): result,
frame and completion. One lemma per shape of instruction says all that the shape does; an instruction then adds the meaning
of its result. -/

namespace Sys2Proof.Machine

open Sys2Proof.Statements

/-- The bytes of memory are read through the devices alone. -/
theorem State.bytesAt_congr {s t : State} (h : t.devices = s.devices) (x : Nat) : t.bytesAt x = s.bytesAt x := by
  rw [State.bytesAt, State.bytesAt, h]

/-! ### Each shape of instruction -/

section Shapes

variable {i : Instr} {s : State} {rd rs1 rs2 : RegIdx}

/-- A register write, the control-flow update and the trace: what the integer instructions and the jumps have in common. -/
theorem writeReg_advance_emit (i : Instr) (s : State) (rd : RegIdx) (a b r v : Word) (taken : Bool) :
    let t := ((s.writeReg rd v).advance taken r).emit (s.traceOf i.record ⟨a, b, r, 0#32, taken, false⟩)
    RegisterWritten s t rd v ∧ BusUntouched s t ∧ ContinuesAt s t (if taken then r else s.pc + 4#32) ∧
      TraceShows t a b r 0#32 taken false := by
  obtain ⟨hregs, hbus⟩ := registerWritten_of_writeReg (sameRegistersAndBus_advance (s.writeReg rd v) taken r
    (s.traceOf i.record ⟨a, b, r, 0#32, taken, false⟩))
  exact ⟨hregs, hbus, continuesAt_of_writeback (.register rd v) taken r _, traceShows_emit _ _ _ _⟩

/-- 41_integer_computational.md rule R140. -/
theorem computes_of_writeResult {a b r v : Word} (hexec : exec i s = writeResult i rd a b r s) (hv : r = v) :
    Computes i s rd a b v :=
  hv ▸ ⟨_, hexec, writeReg_advance_emit i s rd a b r r false⟩

/-- 42_control_transfer.md rule R170. -/
theorem jumpsTo_of_jumpAndLink {a b : Word} (hexec : exec i s = jumpAndLink i rd a b (a + b) s) : JumpsTo i s rd a b :=
  ⟨_, hexec, writeReg_advance_emit i s rd a b (a + b) s.incPc true⟩

/-- 42_control_transfer.md section 2. -/
theorem branchesIf_of_conditionalBranch {c : BranchCond} {offset : BitVec 13} {condition : Bool}
    (hexec : exec i s = conditionalBranch i c rs1 rs2 offset s)
    (hcond : branchTaken c (s.getX rs1.toNat) (s.getX rs2.toNat) = condition) : BranchesIf i s offset condition := by
  subst hcond
  have hsame := sameRegistersAndBus_advance s (branchTaken c (s.getX rs1.toNat) (s.getX rs2.toNat))
    (s.pc + offset.signExtend 32)
  exact ⟨_, hexec, (hsame _).registersKept, (hsame _).busUntouched, continuesAt_of_writeback .nothing _ _ _,
    traceShows_emit _ _ _ _⟩

/-- 43_load_store.md section 1: a load is a bus read, a register write and the control-flow update. -/
theorem loadsFromBus_of_load {w : Width} {sg : Bool} {imm : BitVec 12} (hexec : exec i s = load i w sg rd rs1 imm s) :
    LoadsFromBus i w sg s rd rs1 imm := by
  have hsame := sameRegistersAndBus_advance (s.loadTo rd (s.effectiveAddress rs1 imm) w sg).2 false
    (s.effectiveAddress rs1 imm)
  have hdevices := fun tr => (hsame tr).devices.trans (State.writeReg_devices _ _ _)
  have herror := fun tr => (hsame tr).busError.trans (State.writeReg_busError _ _ _)
  exact ⟨rfl, _, hexec, registerWritten_of_regs (s.busRead_regs _ w sg) (hsame _).regs, hdevices _, herror _,
    fun x => (State.bytesAt_congr (hdevices _) x).trans (s.bytesAt_busRead _ w sg x),
    continuesAt_of_writeback (.load rd _ w sg) false _ _, _, rfl, rfl, rfl, rfl, rfl, rfl, (herror _).symm⟩

/-- 43_load_store.md section 2: a store is a bus write and the control-flow update. -/
theorem storesToBus_of_store {w : Width} {n : Nat} {imm : BitVec 12} (hn : w.bytes = n)
    (hexec : exec i s = store i w rs2 rs1 imm s) : StoresToBus i w n s rs2 rs1 imm := by
  subst hn
  have hsame := sameRegistersAndBus_advance (s.busWrite (s.effectiveAddress rs1 imm) w (s.readReg rs2)) false
    (s.effectiveAddress rs1 imm)
  have hregs := fun tr => (hsame tr).regs.trans (s.busWrite_regs _ w _)
  exact ⟨rfl, _, hexec, ⟨State.registerCount_congr (hregs _), State.getX_congr (hregs _)⟩, (hsame _).devices,
    (hsame _).busError,
    fun x hx => (State.bytesAt_congr (hsame _).devices x).trans (s.bytesAt_busWrite_outside _ w _ hx),
    continuesAt_of_writeback (.store _ w _) false _ _, _, rfl, rfl, rfl, rfl, rfl, rfl, (hsame _).busError.symm⟩

/-- A load that a flat memory answers puts the extended bytes in `rd` and changes no device. -/
theorem load_of_answeredByMemory {w : Width} {sg : Bool} {imm : BitVec 12} {d : Device} {data : Memory} {v : Word}
    (hexec : exec i s = load i w sg rd rs1 imm s) (hmem : AnsweredByMemory s (s.effectiveAddress rs1 imm) w d data)
    (hv : extendRaw w sg (data.localRead ((s.effectiveAddress rs1 imm).toNat - d.base) w) = v) :
    ∃ t, exec i s = .next t ∧ t.devices = s.devices ∧ t.busError = false ∧ RegisterWritten s t rd v := by
  obtain ⟨haddress, t, hnext, hregs, hdevices, herror, -⟩ := loadsFromBus_of_load hexec
  obtain ⟨before, rest, hds, hbefore, hd, hbody⟩ := hmem
  rw [← haddress, State.busRead_memory sg hds hbefore hd hbody] at hregs hdevices herror
  exact ⟨t, hnext, hdevices, herror, hv ▸ hregs⟩

/-- A load that no device accepts reports the error and puts 0 in `rd`. -/
theorem load_of_noDeviceAccepts {w : Width} {sg : Bool} {imm : BitVec 12} (hexec : exec i s = load i w sg rd rs1 imm s)
    (hno : NoDeviceAccepts s (s.effectiveAddress rs1 imm) w) :
    ∃ t, exec i s = .next t ∧ RegisterWritten s t rd 0#32 ∧ t.devices = s.devices ∧ t.busError = true ∧
      ContinuesAt s t (s.pc + 4#32) ∧
      TraceShows t (s.getX rs1.toNat) (imm.signExtend 32) (s.effectiveAddress rs1 imm) 0#32 false true := by
  obtain ⟨haddress, t, hnext, hregs, hdevices, herror, -, hcontrol, htrace⟩ := loadsFromBus_of_load hexec
  rw [← haddress, State.busRead_of_noDeviceAccepts sg hno] at hregs hdevices herror htrace
  rw [herror] at htrace
  exact ⟨t, hnext, hregs, hdevices, herror, hcontrol, htrace⟩

/-- A store that no device accepts reports the error and writes nothing. -/
theorem store_of_noDeviceAccepts {w : Width} {imm : BitVec 12} (hexec : exec i s = store i w rs2 rs1 imm s)
    (hno : NoDeviceAccepts s (s.effectiveAddress rs1 imm) w) :
    ∃ t, exec i s = .next t ∧ RegistersKept s t ∧ t.devices = s.devices ∧ t.busError = true ∧
      ContinuesAt s t (s.pc + 4#32) ∧
      TraceShows t (s.getX rs1.toNat) (imm.signExtend 32) (s.effectiveAddress rs1 imm) 0#32 false true := by
  obtain ⟨haddress, t, hnext, hregs, hdevices, herror, -, hcontrol, htrace⟩ := storesToBus_of_store rfl hexec
  rw [← haddress, State.busWrite_of_noDeviceAccepts _ hno] at hdevices herror
  rw [← haddress, herror] at htrace
  exact ⟨t, hnext, hregs, hdevices, herror, hcontrol, htrace⟩

end Shapes

/-! ### What a write of the bus leaves in the devices (20_memory.md rule R45) -/

/-- Where no device accepts, the broadcast changes none, so every write is the broadcast as far as devices go. -/
theorem State.busWrite_devices (s : State) (a : Word) (w : Width) (v : Word) :
    (s.busWrite a w v).devices = writeAll a.toNat w v s.devices := by
  obtain ⟨hno, h⟩ | ⟨-, h⟩ := s.busWrite_cases a w v
  · rw [h, writeAll, List.map_congr_left fun d hd => if_neg (by simp [hno d hd]), List.map_id']
  · rw [h]

/-- An accepting memory holds the bytes of the value, and every other byte and device is as it was. -/
theorem storedInEveryDevice_of_busWrite {s t : State} {a : Word} {w : Width} {n : Nat} {v : Word} (hn : w.bytes = n)
    (hs : s.Inv) (ht : t.devices = (s.busWrite a w v).devices) : StoredInEveryDevice s t a w n v := by
  subst hn
  obtain ⟨-, hwf⟩ := hs
  rw [State.busWrite_devices] at ht
  refine ⟨by rw [ht, length_writeAll], fun k d hk => ?_⟩
  have hwritten := getElem?_writeAll (a := a.toNat) (w := w) (v := v) hk
  rw [← ht] at hwritten
  refine ⟨fun hacc => by simpa [hacc] using hwritten, fun hacc data hdata => ?_⟩
  have hd : d.wf = true := List.all_eq_true.1 hwf d (List.mem_of_getElem? hk)
  have hbase : d.base ≤ a.toNat := by
    simp only [Device.accepts, Bool.and_eq_true, decide_eq_true_eq] at hacc
    exact hacc.1
  exact ⟨d.write a.toNat w v, by rw [hwritten, if_pos hacc], rfl, rfl,
    fun j hj => Device.byteAt_write_inside hdata hd hacc v hj,
    fun x hx => Device.byteAt_write_outside d a.toNat w v hx hbase⟩

/-- What a store leaves in the devices. -/
theorem storedInEveryDevice_of_store {i : Instr} {s : State} {rs1 rs2 : RegIdx} {w : Width} {n : Nat} {imm : BitVec 12}
    (hn : w.bytes = n) (hs : s.Inv) (hexec : exec i s = store i w rs2 rs1 imm s) :
    ∃ t, exec i s = .next t ∧ StoredInEveryDevice s t (s.effectiveAddress rs1 imm) w n (s.getX rs2.toNat) := by
  obtain ⟨haddress, t, hnext, -, hdevices, -⟩ := storesToBus_of_store hn hexec
  rw [← haddress] at hdevices
  exact ⟨t, hnext, storedInEveryDevice_of_busWrite hn hs hdevices⟩

/-! ### The meaning of a shift's result (40_execution_engine.md rule R106; 30_encoding.md rule R79) -/

theorem aluSll_eq (a b : Word) : aluSll a b = BitVec.ofNat 32 (a.toNat * 2 ^ (b.toNat % 32)) :=
  BitVec.eq_of_toNat_eq (by rw [aluSll_toNat, BitVec.toNat_ofNat])

theorem aluSrl_eq (a b : Word) : aluSrl a b = BitVec.ofNat 32 (a.toNat / 2 ^ (b.toNat % 32)) := by
  rw [← aluSrl_toNat, BitVec.ofNat_toNat, BitVec.setWidth_eq]

theorem aluSra_eq (a b : Word) : aluSra a b = BitVec.ofInt 32 (a.toInt / 2 ^ (b.toNat % 32)) := by
  rw [← aluSra_toInt, BitVec.ofInt_toInt]

/-- Operand B of `slli` and `srli`. -/
theorem shiftImm_logical (shamt : BitVec 5) : shiftImm 0b0000000#7 shamt = shamt.setWidth 32 := by
  revert shamt; decide

/-- Operand B of `srai`. -/
theorem shiftImm_arithmetic (shamt : BitVec 5) : shiftImm 0b0100000#7 shamt = 0x400#32 + shamt.setWidth 32 := by
  revert shamt; decide

/-- The amount of a shift-immediate is `shamt`: its `funct7` lies above the five bits that the ALU uses. -/
theorem shiftImm_toNat_mod (f7 : BitVec 7) (shamt : BitVec 5) : (shiftImm f7 shamt).toNat % 32 = shamt.toNat := by
  rw [← shiftAmount_eq, shiftAmount]
  refine congrArg BitVec.toNat (BitVec.eq_of_getLsbD_eq fun i hi => ?_)
  simp only [shiftImm, sextImm, BitVec.getLsbD_extractLsb', BitVec.getLsbD_signExtend, BitVec.getLsbD_append]
  interval_cases i <;> simp

/-! ### The obligations -/

/-- Settles O25: both results are the ALU's on `pc` and the upper immediate. -/
theorem upperImmediatesLoadAndAddToPc : Obligations.UpperImmediatesLoadAndAddToPc :=
  fun _ _ _ => ⟨computes_of_writeResult rfl rfl, computes_of_writeResult rfl rfl⟩

/-- Settles O26: `+` and `-` on words are modulo 2^32. -/
theorem additionAndSubtractionWrap : Obligations.AdditionAndSubtractionWrap :=
  fun _ _ _ _ _ => ⟨computes_of_writeResult rfl rfl, computes_of_writeResult rfl rfl, computes_of_writeResult rfl rfl⟩

/-- Settles O27: the ALU's operations are the bitwise ones. -/
theorem logicalInstructionsWorkBitByBit : Obligations.LogicalInstructionsWorkBitByBit :=
  fun _ _ _ _ _ => ⟨computes_of_writeResult rfl rfl, computes_of_writeResult rfl rfl, computes_of_writeResult rfl rfl,
    computes_of_writeResult rfl rfl, computes_of_writeResult rfl rfl, computes_of_writeResult rfl rfl⟩

/-- Settles O28, by the arithmetic reading of each shift by the amount in the immediate. -/
theorem shiftImmediatesShiftByShamt : Obligations.ShiftImmediatesShiftByShamt := by
  intro s rd rs1 shamt
  rw [← shiftImm_arithmetic, ← shiftImm_logical]
  refine ⟨computes_of_writeResult rfl ?_, computes_of_writeResult rfl ?_, computes_of_writeResult rfl ?_⟩
  · exact (aluSll_eq _ _).trans (by rw [shiftImm_toNat_mod]; rfl)
  · exact (aluSrl_eq _ _).trans (by rw [shiftImm_toNat_mod]; rfl)
  · exact (aluSra_eq _ _).trans (by rw [shiftImm_toNat_mod]; rfl)

/-- Settles O29, by the arithmetic reading of each shift. -/
theorem registerShiftsTakeTheAmountModulo32 : Obligations.RegisterShiftsTakeTheAmountModulo32 :=
  fun _ _ _ _ => ⟨computes_of_writeResult rfl (aluSll_eq _ _), computes_of_writeResult rfl (aluSrl_eq _ _),
    computes_of_writeResult rfl (aluSra_eq _ _)⟩

/-- Settles O30, by the two comparisons as conditionals. -/
theorem setIfLessGivesOneOrZero : Obligations.SetIfLessGivesOneOrZero :=
  fun _ _ _ _ _ => ⟨computes_of_writeResult rfl (aluSlt_eq _ _), computes_of_writeResult rfl (aluSltu_eq _ _),
    computes_of_writeResult rfl (aluSlt_eq _ _), computes_of_writeResult rfl (aluSltu_eq _ _)⟩

/-- Settles O31: the target is computed from the state before the link is written. -/
theorem jumpsLinkAndTransfer : Obligations.JumpsLinkAndTransfer :=
  fun _ _ _ _ _ => ⟨jumpsTo_of_jumpAndLink rfl, jumpsTo_of_jumpAndLink rfl⟩

/-- Settles O32, by the reading of each condition; `ge` and `geu` are the negations of `lt` and `ltu`. -/
theorem branchesCompareRegisters : Obligations.BranchesCompareRegisters := by
  refine fun s rs1 rs2 offset => ⟨branchesIf_of_conditionalBranch rfl rfl, branchesIf_of_conditionalBranch rfl ?_,
    branchesIf_of_conditionalBranch rfl rfl, branchesIf_of_conditionalBranch rfl ?_,
    branchesIf_of_conditionalBranch rfl rfl, branchesIf_of_conditionalBranch rfl ?_⟩
  · simp only [branchTaken, bne, beq_eq_decide, decide_not]
  · simp only [branchTaken, lessSigned, ← decide_not, not_lt]
  · simp only [branchTaken, lessUnsigned, ← decide_not, not_lt]

/-- Settles O33: each load is the shape of a load, at its width and extension. -/
theorem loadsReadTheBus : Obligations.LoadsReadTheBus :=
  fun _ _ _ _ => ⟨loadsFromBus_of_load rfl, loadsFromBus_of_load rfl, loadsFromBus_of_load rfl, loadsFromBus_of_load rfl,
    loadsFromBus_of_load rfl⟩

/-- Settles O34: a device composes and extends the bytes of a read (43_load_store.md rule R199). -/
theorem loadsFromMemoryExtendItsBytes : Obligations.LoadsFromMemoryExtendItsBytes := by
  refine fun s d data rd rs1 imm => ⟨fun h => ⟨load_of_answeredByMemory rfl h ?_, load_of_answeredByMemory rfl h ?_⟩,
    fun h => ⟨load_of_answeredByMemory rfl h ?_, load_of_answeredByMemory rfl h ?_⟩,
    fun h => load_of_answeredByMemory rfl h ?_⟩
  all_goals simp [extendRaw, signedSlice, unsignedSlice, Width.bytes, Memory.localRead]

/-- Settles O35: each store is the shape of a store, at its width. -/
theorem storesWriteTheBus : Obligations.StoresWriteTheBus :=
  fun _ _ _ _ => ⟨storesToBus_of_store rfl rfl, storesToBus_of_store rfl rfl, storesToBus_of_store rfl rfl⟩

/-- Settles O36, by the broadcast of the bus write that a store makes. -/
theorem storesReachEveryAcceptingMemory : Obligations.StoresReachEveryAcceptingMemory :=
  fun _ _ _ _ hs => ⟨storedInEveryDevice_of_store rfl hs rfl, storedInEveryDevice_of_store rfl hs rfl,
    storedInEveryDevice_of_store rfl hs rfl⟩

/-- Settles O37, by the answer of the bus when no device accepts. -/
theorem failedAccessesOnlyReport : Obligations.FailedAccessesOnlyReport :=
  fun _ _ _ _ _ =>
    ⟨fun h => ⟨load_of_noDeviceAccepts rfl h, load_of_noDeviceAccepts rfl h, store_of_noDeviceAccepts rfl h⟩,
      fun h => ⟨load_of_noDeviceAccepts rfl h, load_of_noDeviceAccepts rfl h, store_of_noDeviceAccepts rfl h⟩,
      fun h => ⟨load_of_noDeviceAccepts rfl h, store_of_noDeviceAccepts rfl h⟩⟩

end Sys2Proof.Machine
end

section
/-! PROOF. Where an access goes and what is read back (20_memory.md rules R50 to R58): a device holds all the bytes of an
access or does not answer it, and a word written is read back whole, in parts and by the fetch. -/

namespace Sys2Proof.Machine

open Sys2Proof.Statements

/-! ### Which accesses a device accepts (rules R37, R50, R51) -/

theorem Width.one_le_bytes (w : Width) : 1 ≤ w.bytes := by cases w <;> decide

theorem Device.rangeOk_of_wf {d : Device} (h : d.wf = true) : Device.rangeOk d.base d.size = true := by
  simp only [Device.wf, Bool.and_eq_true] at h
  exact h.1

/-- A flat memory's bytes are in canonical form. -/
theorem Device.memory_wf_of_wf {d : Device} {data : Memory} (h : d.wf = true) (hdata : d.body = .memory data) :
    data.wf d.size = true := by
  simp only [Device.wf, hdata, Bool.and_eq_true] at h
  exact h.2

/-- A device accepts an access if and only if it holds each of its bytes. -/
theorem Device.accepts_iff_forall {d : Device} (h : d.wf = true) (a : Nat) (w : Width) :
    d.accepts a w = true ↔ ∀ j < w.bytes, d.base ≤ a + j ∧ a + j < d.base + d.size := by
  have hw := Width.one_le_bytes w
  rw [Device.accepts_iff (Device.rangeOk_of_wf h)]
  constructor
  · rintro ⟨hlo, hhi⟩ j hj
    omega
  · intro hall
    have hfirst := hall 0 (by omega)
    have hlast := hall (w.bytes - 1) (by omega)
    omega

/-- What a device accepts ends within the address space. -/
theorem Device.accepted_le {d : Device} (h : d.wf = true) {a : Nat} {w : Width} (ha : d.accepts a w = true) :
    a + w.bytes ≤ 2 ^ 32 := by
  have hrange := Device.rangeOk_of_wf h
  obtain ⟨-, hend⟩ := (Device.accepts_iff hrange a w).1 ha
  obtain ⟨-, htop⟩ := (Device.rangeOk_eq_true_iff _ _).1 hrange
  omega

/-- An access past the end of the address space is answered by no device. -/
theorem noDeviceAccepts_of_past_top {s : State} (hs : s.devices.all Device.wf = true) {a : Word} {w : Width}
    (h : 2 ^ 32 < a.toNat + w.bytes) : NoDeviceAccepts s a w := by
  intro d hd
  rw [← Bool.not_eq_true]
  intro hacc
  have hend := Device.accepted_le (List.all_eq_true.1 hs d hd) hacc
  omega

/-! ### Bytes put together (rules R32, R52) -/

/-- A memory that holds the bytes of a value from place `j` on is read as that part of the value. -/
theorem Memory.localRead_of_bytes {m : Memory} {offset : Nat} {v : Word} {w : Width} {j : Nat}
    (h : ∀ k < w.bytes, m.byte (offset + k) = v.extractLsb' (8 * (j + k)) 8) :
    m.localRead offset w = (v.extractLsb' (8 * j) (8 * w.bytes)).setWidth 32 := by
  have h0 : m.byte offset = v.extractLsb' (8 * j) 8 := h 0 (Width.one_le_bytes w)
  cases w with
  | byte => rw [Memory.localRead, h0]; rfl
  | half =>
    rw [Memory.localRead, h 1 (by decide), h0, BitVec.extractLsb'_append_extractLsb'_eq_extractLsb' (by omega)]
    rfl
  | word =>
    rw [Memory.localRead, h 3 (by decide), h 2 (by decide), h 1 (by decide), h0,
      BitVec.extractLsb'_append_extractLsb'_eq_extractLsb' (by omega),
      BitVec.extractLsb'_append_extractLsb'_eq_extractLsb' (by omega),
      BitVec.extractLsb'_append_extractLsb'_eq_extractLsb' (by omega)]
    exact (BitVec.setWidth_eq _).symm

/-! ### Reading what a bus write has written (rules R52, R58) -/

@[simp] theorem Device.accepts_write (d : Device) (a : Nat) (w : Width) (v : Word) (a' : Nat) (w' : Width) :
    (d.write a w v).accepts a' w' = d.accepts a' w' := rfl

theorem Device.write_body_of_memory {d : Device} {data : Memory} (h : d.body = .memory data) (a : Nat) (w : Width)
    (v : Word) :
    (d.write a w v).body = .memory (data.localWrite (a - d.base) w v) := by
  rw [Device.write, h, DeviceBody.localWrite]

/-- After a write that the flat memory `d` is the first to accept, it is the first to answer every access that the same
devices accept. -/
theorem answeredByMemory_after_busWrite {s : State} {a a' : Word} {w w' : Width} {d : Device} {data : Memory}
    (h : AnsweredByMemory s a w d data) (v : Word)
    (hsame : ∀ e ∈ s.devices, e.accepts a'.toNat w' = e.accepts a.toNat w) :
    AnsweredByMemory (s.busWrite a w v) a' w' (d.write a.toNat w v) (data.localWrite (a.toNat - d.base) w v) := by
  obtain ⟨before, rest, hds, hbefore, hd, hdata⟩ := h
  rw [hds] at hsame
  have hkept : writeAll a.toNat w v before = before :=
    (List.map_congr_left fun e he => if_neg (by simp [hbefore e he])).trans (List.map_id' before)
  refine ⟨before, writeAll a.toNat w v rest, ?_, fun e he => ?_, ?_, Device.write_body_of_memory hdata _ _ _⟩
  · rw [State.busWrite_devices, hds, writeAll, List.map_append, List.map_cons, if_pos hd, ← writeAll, ← writeAll, hkept]
  · rw [hsame e (by simp [he]), hbefore e he]
  · rw [Device.accepts_write, hsame d (by simp), hd]

/-- The part of a written word at place `j`, read back. -/
theorem State.busRead_part_of_busWrite {s : State} (hs : s.Inv) {a : Word} (v : Word) {d : Device} {data : Memory}
    (h : AnsweredByMemory s a .word d data) {w : Width} {j : Nat} (hj : j + w.bytes ≤ 4)
    (hsame : ∀ e ∈ s.devices, e.accepts (a.toNat + j) w = e.accepts a.toNat .word) :
    ((s.busWrite a .word v).busRead (a + BitVec.ofNat 32 j) w false).1 =
      (v.extractLsb' (8 * j) (8 * w.bytes)).setWidth 32 := by
  obtain ⟨-, hwf⟩ := hs
  have ⟨before, rest, hds, _, hacc, hdata⟩ := h
  have hd : d.wf = true := List.all_eq_true.1 hwf d (by simp [hds])
  obtain ⟨hlo, hhi⟩ := (Device.accepts_iff (Device.rangeOk_of_wf hd) _ _).1 hacc
  have htop := Device.accepted_le hd hacc
  have hw := Width.one_le_bytes w
  simp only [Width.bytes] at hhi htop
  have hplace : (a + BitVec.ofNat 32 j).toNat = a.toNat + j := by
    rw [BitVec.toNat_add, BitVec.toNat_ofNat]
    omega
  have hmem := answeredByMemory_after_busWrite (a' := a + BitVec.ofNat 32 j) (w' := w) h v (by rwa [hplace])
  rw [State.busRead_of_answeredByMemory hmem, hplace, Device.write_base]
  refine Memory.localRead_of_bytes fun k hk => ?_
  rw [show a.toNat + j - d.base + k = a.toNat - d.base + (j + k) by omega]
  exact Memory.byte_localWrite_inside (Device.memory_wf_of_wf hd hdata) .word v (by simp only [Width.bytes]; omega)
    (by simp only [Width.bytes]; omega)

theorem State.busRead_of_busWrite {s : State} (hs : s.Inv) {a : Word} (v : Word) {d : Device} {data : Memory}
    (h : AnsweredByMemory s a .word d data) : ((s.busWrite a .word v).busRead a .word false).1 = v := by
  have hpart := State.busRead_part_of_busWrite hs v h (w := .word) (j := 0) (by decide) (fun _ _ => rfl)
  simpa [Width.bytes] using hpart

/-! ### The word placed where the fetch finds it (log entry 13) -/

/-- A word is placed in the first device that accepts the access, which is then a flat memory. -/
theorem placeInFirst_eq_some {a : Nat} {v : Word} {ds ds' : List Device} (h : placeInFirst a v ds = some ds') :
    ∃ before d rest data, ds = before ++ d :: rest ∧ (∀ e ∈ before, e.accepts a .word = false) ∧
      d.accepts a .word = true ∧ d.body = .memory data ∧ ds' = before ++ d.write a .word v :: rest := by
  induction ds generalizing ds' with
  | nil => cases h
  | cons d ds ih =>
    rw [placeInFirst] at h
    by_cases hd : d.accepts a .word = true
    · rw [if_pos hd] at h
      split at h
      next data hdata =>
        obtain rfl := Option.some.inj h
        exact ⟨[], d, ds, data, rfl, by simp, hd, hdata, by simp [Device.write, hdata, DeviceBody.localWrite]⟩
      next => cases h
    · rw [if_neg hd] at h
      obtain ⟨rest', hrest, rfl⟩ := Option.map_eq_some_iff.1 h
      obtain ⟨before, e, rest, data, rfl, hbefore, he, hdata, rfl⟩ := ih hrest
      exact ⟨d :: before, e, rest, data, rfl, by simpa [hd] using hbefore, he, hdata, rfl⟩

/-- The flat memory of four bytes that holds a word at an address where no memory answers the fetch. -/
def Device.holding (a : Nat) (v : Word) : Device := ⟨a, 4, .memory (Memory.localWrite [] 0 .word v)⟩

theorem Device.holding_accepts (a : Nat) (v : Word) : (Device.holding a v).accepts a .word = true := by
  simp [Device.holding, Device.accepts, Device.last, Width.bytes]

/-- Placing a word aligns `pc` and changes the devices, and the word is what the fetch finds. -/
theorem State.placeWord_fetch {s : State} (hs : s.devices.all Device.wf = true) (v : Word) :
    ∃ ds, s.placeWord v = { s.setPc s.pc with devices := ds } ∧ { s.setPc s.pc with devices := ds }.fetch.1 = v := by
  cases hplace : placeInFirst (alignPc s.pc).toNat v s.devices with
  | some ds =>
    obtain ⟨before, d, rest, data, hds, hbefore, hacc, hdata, hds'⟩ := placeInFirst_eq_some hplace
    have hd : d.wf = true := List.all_eq_true.1 hs d (by simp [hds])
    obtain ⟨hlo, hhi⟩ := (Device.accepts_iff (Device.rangeOk_of_wf hd) _ _).1 hacc
    simp only [Width.bytes] at hhi
    have hmem : AnsweredByMemory { s.setPc s.pc with devices := ds } (alignPc s.pc) .word
        (d.write (alignPc s.pc).toNat .word v) (data.localWrite ((alignPc s.pc).toNat - d.base) .word v) :=
      ⟨before, rest, hds', hbefore, hacc, Device.write_body_of_memory hdata _ _ _⟩
    refine ⟨ds, by simp only [State.placeWord, hplace],
      (congrArg Prod.fst (State.busRead_of_answeredByMemory hmem)).trans ?_⟩
    exact Memory.localRead_localWrite_word (Device.memory_wf_of_wf hd hdata) v (by omega)
  | none =>
    have hmem : AnsweredByMemory { s.setPc s.pc with devices := Device.holding (alignPc s.pc).toNat v :: s.devices }
        (alignPc s.pc) .word (Device.holding (alignPc s.pc).toNat v) (Memory.localWrite [] 0 .word v) :=
      ⟨[], s.devices, rfl, by simp, Device.holding_accepts _ v, rfl⟩
    refine ⟨_, by simp only [State.placeWord, hplace]; rfl,
      (congrArg Prod.fst (State.busRead_of_answeredByMemory hmem)).trans ?_⟩
    rw [Device.holding, Nat.sub_self]
    exact Memory.localRead_localWrite_word (size := 4) (m := []) rfl v (by decide)

/-! ### The obligations -/

/-- Settles O42: the range of an accepting device holds the access, and ends within the address space. -/
theorem accessNeedsADeviceThatHoldsAllItsBytes : Obligations.AccessNeedsADeviceThatHoldsAllItsBytes := by
  intro s a w n hn hs
  obtain rfl := Width.bytes_of_mem hn
  obtain ⟨-, hwf⟩ := hs
  exact ⟨fun d hd => Device.accepts_iff_forall (List.all_eq_true.1 hwf d hd) a.toNat w, noDeviceAccepts_of_past_top hwf⟩

/-- Settles O45, by the bytes of the written word in the memory that answers; the whole word is its part at place 0. -/
theorem writtenWordIsReadInPartsAndFetched : Obligations.WrittenWordIsReadInPartsAndFetched := by
  refine fun s a v d data hs h => ⟨State.busRead_of_busWrite hs v h, fun w n j hn hj hsame => ?_, ?_⟩
  · obtain rfl := Width.bytes_of_mem hn
    exact State.busRead_part_of_busWrite hs v h hj hsame
  · rintro rfl
    rw [State.fetch_fst, State.busWrite_pc]
    exact State.busRead_of_busWrite hs v h

/-- Settles O51: the word is placed at the aligned `pc`, which is `pc` itself in a state that meets the invariant. -/
theorem placedWordIsTheOneFetched : Obligations.PlacedWordIsTheOneFetched := by
  intro s w ⟨hpc, hwf⟩ hw
  obtain ⟨ds, hplace, hfetch⟩ := s.placeWord_fetch hwf (BitVec.ofNat 32 w)
  rw [State.withFetchWord, Nat.mod_eq_of_lt hw, hplace]
  exact ⟨hfetch, rfl, hpc, rfl, rfl⟩

end Sys2Proof.Machine
end
